-- ==== Sys2Proof/Word.lean ====
section
/-!
DEFINITION. The word types of the B32C core (`00_scope.md` R4, R5; `30_encoding.md` R50).
-/

namespace Sys2Proof

/-- A byte of the encoder's input or of the decoder's output: 8 bits (R4). -/
abbrev Byte := BitVec 8

/-- A character code: `CHAR_W` = 8 bits (R5). -/
abbrev CharCode := BitVec 8

/-- A symbol's value: 5 bits (R4). -/
abbrev SymVal := BitVec 5

/-- A command word `CW[11:0]` (R50). -/
abbrev CommandWord := BitVec 12

end Sys2Proof
end

