-- ==== Sys2Proof/Config.lean ====
section
/-!
DEFINITION. What the spec leaves open: the free values. Each is an opaque constant, so a statement that holds at all holds
whatever it is.

`93_implementation_defined.md` U3: a model whose state type contains register combinations outside the invariants R14 and
R18 gives the commands' results there "any value" (log 4). The values the spec fixes for this hardware (the alphabet, the
aliases, the marker) are no free values: they stand in `Machine/Tables.lean`.
-/

namespace Sys2Proof

/-- What `ENC.BYTE b` leaves in an encoder session outside R14: ENC.OFF, ENC.ACC and ENC.OUT, any value (U3). -/
opaque Config.encByteOutside (off : BitVec 4) (acc : Byte) (out : List CharCode) (b : Byte) :
    BitVec 4 × Byte × List CharCode

/-- What `ENC.FLUSH m` leaves in an encoder session outside R14: ENC.OFF, ENC.ACC and ENC.OUT, any value (U3). -/
opaque Config.encFlushOutside (off : BitVec 4) (acc : Byte) (out : List CharCode) (m : Bool) :
    BitVec 4 × Byte × List CharCode

/-- What `DEC.CHAR` of a recognised character of value `v` leaves in a decoder session outside R18: DEC.CNT, DEC.ACC and
DEC.OUT, any value (U3). -/
opaque Config.decCharOutside (cnt : BitVec 3) (acc : Byte) (out : List Byte) (v : SymVal) :
    BitVec 3 × Byte × List Byte

end Sys2Proof
end

