-- ==== Sys2Proof/Syntax.lean ====
section
/-!
DEFINITION. The eight commands of `30_encoding.md` R52, one constructor per row of `opcode_table.json`, in the table's order,
and the fields of a command word (R50). The operand types are exactly as wide as the operand fields (R53), so an instruction
of this type has no operand out of range (log 8).
-/

namespace Sys2Proof

/-- The commands (R52). -/
inductive Instr where
  /-- `ENC.BYTE b`: ingest one byte (R90). -/
  | encByte (b : Byte)
  /-- `ENC.FLUSH m`: end the encoder's message; `m` is the marker flag (R91). -/
  | encFlush (m : Bool)
  /-- `ENC.DRAIN`: return and clear the encoder's output (R92). -/
  | encDrain
  /-- `DEC.CHAR ch`: ingest one character (R110). -/
  | decChar (ch : CharCode)
  /-- `DEC.FLUSH m`: end the decoder's message; `m` has no effect (R111). -/
  | decFlush (m : Bool)
  /-- `DEC.DRAIN`: return and clear the decoder's output (R112). -/
  | decDrain
  /-- `SYM.FWD v`: the canonical symbol of a value (R70). -/
  | symFwd (v : SymVal)
  /-- `SYM.REV ch`: look a character up (R71). -/
  | symRev (ch : CharCode)
deriving DecidableEq, Repr

/-- The three units of the block (R1). -/
inductive BlockUnit where
  | enc
  | dec
  | sym
deriving DecidableEq, Repr

/-- The unit a command addresses: the first part of its mnemonic (R52). -/
def Instr.blockUnit : Instr → BlockUnit
  | .encByte _ | .encFlush _ | .encDrain => .enc
  | .decChar _ | .decFlush _ | .decDrain => .dec
  | .symFwd _ | .symRev _ => .sym

/-- The three fields of a command word (R50), before any check. -/
structure Fields where
  /-- `CW[11:10]` -/
  unit : BitVec 2
  /-- `CW[9:8]` -/
  op : BitVec 2
  /-- `CW[7:0]` -/
  arg : BitVec 8
deriving DecidableEq, Repr

/-- Why a command word spells no command: the four classes of R56. The block itself does not tell them apart (R163). -/
inductive Reserved where
  /-- R56 (a): an unused `unit` and `op`. -/
  | unusedOp
  /-- R56 (b): a flush with `arg` 2 or more. -/
  | flushArg
  /-- R56 (c): a drain with `arg` not 0. -/
  | drainArg
  /-- R56 (d): `SYM.FWD` with `arg` 0x20 or more. -/
  | fwdArg
deriving DecidableEq, Repr

end Sys2Proof
end

