-- ==== Sys2Proof/WellFormed.lean ====
section
/-!
DEFINITION. When the fields of a command word spell a command (`30_encoding.md` R52, R55, R56), written from the list of legal
operations and of must-be-zero bits, apart from the decoder. The check is on `Fields` because `Instr` itself has no ill-formed
term (its operand types carry the bounds, log 8).
-/

namespace Sys2Proof

/-- The `unit` and `op` pair is one of the eight that R52 uses: ENC and DEC have operations 0 to 2, SYM has 0 and 1. -/
def Fields.opAssigned (f : Fields) : Bool :=
  if f.unit = 0b00 ∨ f.unit = 0b01 then f.op ≠ 0b11
  else if f.unit = 0b10 then f.op = 0b00 ∨ f.op = 0b01
  else false

/-- R55 for the flushes: `arg[7:1]` must be zero. -/
def Fields.flushArgFits (f : Fields) : Bool :=
  if (f.unit = 0b00 ∨ f.unit = 0b01) ∧ f.op = 0b01 then f.arg.extractLsb' 1 7 = 0 else true

/-- R55 for the drains: all of `arg` must be zero. -/
def Fields.drainArgFits (f : Fields) : Bool :=
  if (f.unit = 0b00 ∨ f.unit = 0b01) ∧ f.op = 0b10 then f.arg = 0 else true

/-- R55 for `SYM.FWD`: `arg[7:5]` must be zero. -/
def Fields.fwdArgFits (f : Fields) : Bool :=
  if f.unit = 0b10 ∧ f.op = 0b00 then f.arg.extractLsb' 5 3 = 0 else true

/-- The fields spell a command: the word is one of the 806 legal ones (R54). -/
def Fields.wellFormed (f : Fields) : Bool :=
  f.opAssigned && f.flushArgFits && f.drainArgFits && f.fwdArgFits

end Sys2Proof
end

