-- ==== Sys2Proof/Decode.lean ====
section
/-!
DEFINITION. The decoder (`30_encoding.md` R50, R52, R53, R55, R56), total on the 4096 command words, rejecting a reserved word
by the name of its class; then the encoder, and the rows of R52 with their match and mask.
-/

namespace Sys2Proof

/-- The fields `unit`, `op` and `arg` of a command word (R50). -/
def Fields.ofWord (w : CommandWord) : Fields :=
  ⟨w.extractLsb' 10 2, w.extractLsb' 8 2, w.extractLsb' 0 8⟩

/-- The marker flag of a flush: `m = arg[0]`, with `arg[7:1]` zero (R53, R55). -/
def decodeFlush (mk : Bool → Instr) (arg : BitVec 8) : Except Reserved Instr :=
  if arg.toNat < 2 then .ok (mk (arg.getLsbD 0)) else .error .flushArg

/-- A drain takes no operand: `arg` is zero (R55). -/
def decodeDrain (i : Instr) (arg : BitVec 8) : Except Reserved Instr :=
  if arg.toNat = 0 then .ok i else .error .drainArg

/-- The value of `SYM.FWD`: `v = arg[4:0]`, with `arg[7:5]` zero (R53, R55). -/
def decodeFwd (arg : BitVec 8) : Except Reserved Instr :=
  if arg.toNat < 32 then .ok (.symFwd (arg.extractLsb' 0 5)) else .error .fwdArg

/-- Decoding by the first hexadecimal digit of the word, `unit ++ op` (R50, R52). -/
def decodeFields (f : Fields) : Except Reserved Instr :=
  match f.unit.toNat, f.op.toNat with
  | 0, 0 => .ok (.encByte f.arg)
  | 0, 1 => decodeFlush .encFlush f.arg
  | 0, 2 => decodeDrain .encDrain f.arg
  | 1, 0 => .ok (.decChar f.arg)
  | 1, 1 => decodeFlush .decFlush f.arg
  | 1, 2 => decodeDrain .decDrain f.arg
  | 2, 0 => decodeFwd f.arg
  | 2, 1 => .ok (.symRev f.arg)
  | _, _ => .error .unusedOp

/-- The decoder: the command a word spells, or the class of R56 the word belongs to. -/
def decode (w : CommandWord) : Except Reserved Instr :=
  decodeFields (Fields.ofWord w)

/-- The encoder, from the pattern column of R52. -/
def encode : Instr → CommandWord
  | .encByte b => 0b0000#4 ++ b
  | .encFlush m => 0b00010000000#11 ++ BitVec.ofBool m
  | .encDrain => 0b001000000000#12
  | .decChar ch => 0b0100#4 ++ ch
  | .decFlush m => 0b01010000000#11 ++ BitVec.ofBool m
  | .decDrain => 0b011000000000#12
  | .symFwd v => 0b1000000#7 ++ v
  | .symRev ch => 0b1001#4 ++ ch

/-- A row of R52: a word `W` selects the row when `W & mask = match`. -/
structure TableRow where
  value : CommandWord
  mask : CommandWord
deriving DecidableEq, Repr

/-- A word selects a row of R52. -/
def TableRow.selectedBy (r : TableRow) (w : CommandWord) : Bool := w &&& r.mask = r.value

/-- The row of R52 that an instruction belongs to. -/
def Instr.tableRow : Instr → TableRow
  | .encByte _ => ⟨0x000, 0xF00⟩
  | .encFlush _ => ⟨0x100, 0xFFE⟩
  | .encDrain => ⟨0x200, 0xFFF⟩
  | .decChar _ => ⟨0x400, 0xF00⟩
  | .decFlush _ => ⟨0x500, 0xFFE⟩
  | .decDrain => ⟨0x600, 0xFFF⟩
  | .symFwd _ => ⟨0x800, 0xFE0⟩
  | .symRev _ => ⟨0x900, 0xF00⟩

/-- The eight rows of R52, in the table's order. -/
def tableRows : List TableRow :=
  [⟨0x000, 0xF00⟩, ⟨0x100, 0xFFE⟩, ⟨0x200, 0xFFF⟩, ⟨0x400, 0xF00⟩,
   ⟨0x500, 0xFFE⟩, ⟨0x600, 0xFFF⟩, ⟨0x800, 0xFE0⟩, ⟨0x900, 0xF00⟩]

/-- A command word, given as a number, selects some row of R52: it is a legal word (R54). -/
def isLegalWord (n : Nat) : Bool := tableRows.any fun r => r.selectedBy (BitVec.ofNat 12 n)

/-- A command word, given as a number, selects no row of R52: it is a reserved word (R56). -/
def isReservedWord (n : Nat) : Bool := !isLegalWord n

/-- The instruction that the decoder reads from a table word: the low `nbits` bits of `w` are the word. A number that does not
fit the 12-bit port is no command word and gives none (R50, log 7). -/
def decodeTableWord (nbits w : Nat) : Option Instr :=
  if w % 2 ^ nbits < 4096 then (decode (BitVec.ofNat 12 (w % 2 ^ nbits))).toOption else none

end Sys2Proof
end

