-- ==== Sys2Proof/Machine/State.lean ====
section
/-!
DEFINITION. The state of the block (`10_state.md` R10), its reset values (R25), the responses (`00_scope.md` R8), the events of
the host (R7, `70_reset_and_hazards.md` R180, R196), and the reasons a step can stop.
-/

namespace Sys2Proof.Machine

/-- The encoder session (R10, R13 to R16). -/
structure EncSession where
  /-- `ENC.OFF`, `bitOffset`: a 4-bit two's complement field, minus the number of carry bits (R13). -/
  off : BitVec 4
  /-- `ENC.ACC`, `accumulator`: the carry bits at the top, zeros below (R14, R15). -/
  acc : Byte
  /-- `ENC.OUT`, `pendingOutput`: the symbols produced and not yet returned, oldest first, unbounded (R16). -/
  out : List CharCode
deriving DecidableEq, Repr

/-- The decoder session (R10, R17 to R20). -/
structure DecSession where
  /-- `DEC.CNT`, `bitCount`: the number of leftover bits, 3 bits unsigned (R17). -/
  cnt : BitVec 3
  /-- `DEC.ACC`, `byteAccumulator`: the leftover bits at the top, zeros below (R18, R19). -/
  acc : Byte
  /-- `DEC.OUT`, `pendingOutput`: the bytes produced and not yet returned, oldest first, unbounded (R20). -/
  out : List Byte
deriving DecidableEq, Repr

/-- The response of one command (R8). -/
inductive Response where
  /-- No data: `ENC.BYTE`, `ENC.FLUSH`, `DEC.CHAR`, `DEC.FLUSH`. -/
  | ack
  /-- The drained characters: `ENC.DRAIN`. -/
  | chars (cs : List CharCode)
  /-- The drained bytes: `DEC.DRAIN`. -/
  | bytes (bs : List Byte)
  /-- One character: `SYM.FWD`. -/
  | char (c : CharCode)
  /-- A value: `SYM.REV` of a character with a mapping. -/
  | found (v : SymVal)
  /-- `SYM.REV` of a character with no mapping. -/
  | notFound
  /-- The answer to a reserved word (R56, R163). -/
  | err
deriving DecidableEq, Repr

/-- What the host does to the block: it presents a command word (R7), or raises RESET between two commands (R180, R181). -/
inductive HostEvent where
  | command (w : CommandWord)
  | reset
deriving DecidableEq, Repr

/-- The state. `enc` and `dec` are the six items of R10, all the state the spec gives the block. `input` and `responses` are the
model's own: the host's events still to come (R12: "takes the command sequence as an input list and consumes it head first";
log 1) and the responses returned so far, oldest first (log 2). -/
structure State where
  enc : EncSession
  dec : DecSession
  input : List HostEvent
  responses : List Response
deriving DecidableEq, Repr

/-- No fault exists. R160: "No command raises an exception, fault or trap, whatever its operand and whatever the state." -/
inductive Fault where
deriving DecidableEq, Repr

/-- The reasons the model has no meaning for a command. -/
inductive Refusal where
  /-- Raised by an arm of `exec` for an instruction that has no meaning yet. Safe: the model stops where the block goes on. No
  arm raises it now. -/
  | notModelled (mnemonic : String)
deriving DecidableEq, Repr

/-- The created-empty encoder session: ENC.OFF = 0, ENC.ACC = 0x00, ENC.OUT = [] (R25). -/
def EncSession.reset : EncSession := { off := 0, acc := 0x00, out := [] }

/-- The created-empty decoder session: DEC.CNT = 0, DEC.ACC = 0x00, DEC.OUT = [] (R25). -/
def DecSession.reset : DecSession := { cnt := 0, acc := 0x00, out := [] }

/-- The state after reset: the six values of R25. Nothing has been presented and nothing returned (logs 1, 2). -/
def State.reset : State :=
  { enc := EncSession.reset, dec := DecSession.reset, input := [], responses := [] }

end Sys2Proof.Machine
end

