-- ==== Sys2Proof/Machine/Tables.lean ====
section
/-!
DEFINITION. SYMTAB: the two read-only table spaces (`20_memory.md` R30, R31), with the contents of `40_symtab.md` R72 to R77.
They are constants, not state (`10_state.md` R21); no operation writes them. The values are the ones the spec fixes for this
hardware (`00_scope.md` R5, log 6).
-/

namespace Sys2Proof.Machine

/-- The canonical alphabet, index = value: `0123456789abcdefghjkmnpqrstvwxyz` (R72). -/
def alphabet : List CharCode :=
  [0x30, 0x31, 0x32, 0x33, 0x34, 0x35, 0x36, 0x37] ++ [0x38, 0x39, 0x61, 0x62, 0x63, 0x64, 0x65, 0x66] ++
  [0x67, 0x68, 0x6A, 0x6B, 0x6D, 0x6E, 0x70, 0x71] ++ [0x72, 0x73, 0x74, 0x76, 0x77, 0x78, 0x79, 0x7A]

/-- The decode-only aliases with their values: `o` is `0`, `i` and `l` are `1` (R74). -/
def aliasTable : List (CharCode × SymVal) := [(0x6F, 0), (0x69, 1), (0x6C, 1)]

/-- The trailer character of `ENC.FLUSH`: `$` (R5). -/
def marker : CharCode := 0x24

/-- `MemRead(FWD, v)`: the canonical symbol of a value (R30). The alphabet has 32 entries, so every value has one. -/
def memReadFwd (v : SymVal) : CharCode := alphabet.get ⟨v.toNat, v.isLt⟩

/-- `Fold(ch)`: the codes 0x41 to 0x5A go to the code plus 0x20, every other code stays (R75). -/
def fold (ch : CharCode) : CharCode := if 0x41 ≤ ch.toNat ∧ ch.toNat ≤ 0x5A then ch + 0x20 else ch

/-- The value of a canonical character: its index in the alphabet. -/
def canonicalValue (f : CharCode) : Option SymVal := (alphabet.findIdx? (· == f)).map (BitVec.ofNat 5)

/-- The value of an alias character. -/
def aliasValue (f : CharCode) : Option SymVal := (aliasTable.find? (·.1 == f)).map (·.2)

/-- `Lookup(ch)`: fold, then the alphabet, then the aliases (R76). `none` is `NotFound`. -/
def lookup (ch : CharCode) : Option SymVal :=
  match canonicalValue (fold ch) with
  | some v => some v
  | none => aliasValue (fold ch)

/-- `MemRead(REV, ch)`: a 6-bit entry, bit 5 `found`, bits 4:0 `value`, zero where not found (R31). -/
def memReadRev (ch : CharCode) : BitVec 6 :=
  match lookup ch with
  | some v => 0b1#1 ++ v
  | none => 0

end Sys2Proof.Machine
end

