-- ==== Sys2Proof/Machine/Flags.lean ====
section
/-!
DEFINITION. The block has no flags or condition codes (`10_state.md` R22). The one condition a command computes is the `found`
bit of a REV entry; it is consumed inside the command or is part of its response, and is not kept (R22).
-/

namespace Sys2Proof.Machine

/-- Bit 5 of a REV entry (`20_memory.md` R31). -/
def revFound (e : BitVec 6) : Bool := e.getLsbD 5

/-- Bits 4:0 of a REV entry (`20_memory.md` R31). -/
def revValue (e : BitVec 6) : SymVal := e.extractLsb' 0 5

end Sys2Proof.Machine
end

