-- ==== Sys2Proof/Machine/Operands.lean ====
section
/-!
DEFINITION. The numbers the two repackers compute with, over integers of unbounded width as `00_scope.md` section 5 has them:
the carry count, the carried bits as a number, joining, cutting groups, left-aligning the rest (`41_encoder.md` R90,
`42_decoder.md` R110); and the invariants of the two sessions (`10_state.md` R14, R18).
-/

namespace Sys2Proof.Machine

/-- `c = -ENC.OFF`, the number of carry bits (R13). -/
def carryCount (off : BitVec 4) : Nat := (-off.toInt).toNat

/-- The top `n` bits of an 8-bit register as a number: `acc >> (8 - n)`; 0 when `n` is 0 (R90, R110). -/
def topBits (acc : Byte) (n : Nat) : Nat := acc.toNat >>> (8 - n)

/-- The pending bits: `(hi << w) | lo`, oldest highest (R90, R110). -/
def joinBits (hi w lo : Nat) : Nat := (hi <<< w) ||| lo

/-- Group `j` of the `n` pending bits `W`, oldest first: `(W >> (n - 5*(j+1))) & 0x1F` (R90). -/
def groupOf (W n j : Nat) : SymVal := BitVec.ofNat 5 ((W >>> (n - 5 * (j + 1))) &&& 0x1F)

/-- The last `r` bits of `W`, moved to the top of an 8-bit register: `((W & ((1 << r) - 1)) << (8 - r)) & 0xFF` (R90, R110). -/
def leftAlign (W r : Nat) : Byte := BitVec.ofNat 8 (((W &&& ((1 <<< r) - 1)) <<< (8 - r)) &&& 0xFF)

/-- The encoder's invariant (R14): ENC.OFF is one of 0, -1, -2, -3, -4, and every bit of ENC.ACC below the carry bits is 0. -/
abbrev EncSession.Legal (e : EncSession) : Prop :=
  (-4 ≤ e.off.toInt ∧ e.off.toInt ≤ 0) ∧ e.acc.toNat &&& (0xFF >>> carryCount e.off) = 0

/-- The decoder's invariant (R18): every bit of DEC.ACC below the leftover bits is 0. DEC.CNT has no illegal value. -/
abbrev DecSession.Legal (d : DecSession) : Prop :=
  d.acc.toNat &&& (0xFF >>> d.cnt.toNat) = 0

end Sys2Proof.Machine
end

