-- ==== Sys2Proof/Machine/Ops.lean ====
section
/-!
DEFINITION. The named operations over the state: writing a session, appending to a queue, returning a response, answering a
reserved word, RESET. There is no exception to take and none to return from (`60_exceptions.md` R160, R166): the answer to a
reserved word is the block's only refusal (R163).
-/

namespace Sys2Proof.Machine

/-- Write the encoder session; nothing else changes. -/
def State.setEnc (s : State) (e : EncSession) : State := { s with enc := e }

/-- Write the decoder session; nothing else changes. -/
def State.setDec (s : State) (d : DecSession) : State := { s with dec := d }

/-- The host's events still to come. -/
def State.setInput (s : State) (evs : List HostEvent) : State := { s with input := evs }

/-- Return one response to the host (`00_scope.md` R7): it is recorded after the earlier ones (log 2). -/
def State.respond (s : State) (r : Response) : State := { s with responses := s.responses ++ [r] }

/-- `ENC.OUT.push` of each item, in order (`20_memory.md` R38). -/
def EncSession.push (e : EncSession) (cs : List CharCode) : EncSession := { e with out := e.out ++ cs }

/-- `DEC.OUT.push` of each item, in order (`20_memory.md` R38). -/
def DecSession.push (d : DecSession) (bs : List Byte) : DecSession := { d with out := d.out ++ bs }

/-- `ENC.OUT <- []`; the carry bits survive (R92). -/
def EncSession.emptied (e : EncSession) : EncSession := { e with out := [] }

/-- `DEC.OUT <- []`; the leftover bits survive (R112). -/
def DecSession.emptied (d : DecSession) : DecSession := { d with out := [] }

/-- The command port's answer to a reserved word: `Err`, and no item of the block changes (`30_encoding.md` R56,
`60_exceptions.md` R163). -/
def answerErr (s : State) : State := s.respond .err

/-- RESET: all six items take the values of R25; undrained output is lost (`70_reset_and_hazards.md` R180, R181). It is no
command and returns no response; the responses already returned are the host's (log 9). -/
def resetEvent (s : State) : State := (s.setEnc EncSession.reset).setDec DecSession.reset

end Sys2Proof.Machine
end

