-- ==== Sys2Proof/Machine/Decoder.lean ====
section
/-!
DEFINITION. DEC, the 5-to-8 bit-unpacking unit: the meanings of `DEC.CHAR`, `DEC.FLUSH`, `DEC.DRAIN` (`42_decoder.md` R110 to
R112). Outside the invariant R18 the session left by `DEC.CHAR` of a recognised character is a free value (log 4).
-/

namespace Sys2Proof.Machine

/-- R110 on a session that meets R18, for a recognised character of value `v`: join the leftover bits and the value; when 8 or
more bits are there the oldest 8 make one byte; keep the rest. -/
def decUnpack (v : SymVal) (d : DecSession) : DecSession :=
  let k := d.cnt.toNat
  let W := joinBits (topBits d.acc k) 5 v.toNat
  let n := k + 5
  if 8 ≤ n then
    { cnt := BitVec.ofNat 3 (n - 8), acc := leftAlign W (n - 8),
      out := (d.push [BitVec.ofNat 8 ((W >>> (n - 8)) &&& 0xFF)]).out }
  else
    { cnt := BitVec.ofNat 3 n, acc := leftAlign W n, out := d.out }

/-- The session after a recognised character of value `v`. -/
def decAfterValue (v : SymVal) (d : DecSession) : DecSession :=
  if d.Legal then decUnpack v d
  else
    let x := Config.decCharOutside d.cnt d.acc d.out v
    ⟨x.1, x.2.1, x.2.2⟩

/-- The session after `DEC.CHAR ch`: the character is looked up before anything else; noise changes nothing (R110,
`60_exceptions.md` R165). -/
def decAfterChar (ch : CharCode) (d : DecSession) : DecSession :=
  if revFound (memReadRev ch) then decAfterValue (revValue (memReadRev ch)) d else d

/-- The session after `DEC.FLUSH`: both registers zero, the queue as it is (R111). -/
def decAfterFlush (d : DecSession) : DecSession := { d with cnt := 0, acc := 0x00 }

/-- `DEC.CHAR ch`: response `Ack`, whether the character was recognised or not (R110). -/
def execDecChar (ch : CharCode) (s : State) : Host.Outcome State Fault Refusal :=
  .next ((s.setDec (decAfterChar ch s.dec)).respond .ack)

/-- `DEC.FLUSH m`: response `Ack`; the marker flag is not read (R111, `90_conflicts.md` C4). -/
def execDecFlush (_m : Bool) (s : State) : Host.Outcome State Fault Refusal :=
  .next ((s.setDec (decAfterFlush s.dec)).respond .ack)

/-- `DEC.DRAIN`: the whole queue is the response and the queue is emptied (R112). -/
def execDecDrain (s : State) : Host.Outcome State Fault Refusal :=
  .next ((s.setDec s.dec.emptied).respond (.bytes s.dec.out))

end Sys2Proof.Machine
end

