-- ==== Sys2Proof/Machine/Encoder.lean ====
section
/-!
DEFINITION. ENC, the 8-to-5 bit-packing unit: the meanings of `ENC.BYTE`, `ENC.FLUSH`, `ENC.DRAIN` (`41_encoder.md` R90 to R92).
Outside the invariant R14 the session left by `ENC.BYTE` and `ENC.FLUSH` is a free value (log 4).
-/

namespace Sys2Proof.Machine

/-- The whole groups of the `n` pending bits `W`, oldest first: `n div 5` of them (R90). -/
def encGroups (W n : Nat) : List SymVal := (List.range (n / 5)).map (groupOf W n)

/-- R90 on a session that meets R14: join the carry and the byte, append the symbol of each whole group, keep the rest. -/
def encPack (b : Byte) (e : EncSession) : EncSession :=
  let c := carryCount e.off
  let W := joinBits (topBits e.acc c) 8 b.toNat
  let n := 8 + c
  let r := n % 5
  { off := BitVec.ofInt 4 (-(r : Int)), acc := leftAlign W r, out := (e.push ((encGroups W n).map memReadFwd)).out }

/-- The session after `ENC.BYTE b`. -/
def encAfterByte (b : Byte) (e : EncSession) : EncSession :=
  if e.Legal then encPack b e
  else
    let x := Config.encByteOutside e.off e.acc e.out b
    ⟨x.1, x.2.1, x.2.2⟩

/-- The pad symbol of a flush: the carry bits followed by zeros, `ENC.ACC[7:3]`, if carry bits wait; the test is on ENC.OFF
(R91 and its corner case c). -/
def encPadSymbol (e : EncSession) : List CharCode :=
  if e.off.toInt < 0 then [memReadFwd (e.acc.extractLsb' 3 5)] else []

/-- The marker of a flush, if its flag is set (R91). -/
def encMarker (m : Bool) : List CharCode := if m then [marker] else []

/-- The session after `ENC.FLUSH m`: the pad symbol, then the marker, and both registers zero (R91). -/
def encAfterFlush (m : Bool) (e : EncSession) : EncSession :=
  if e.Legal then { off := 0, acc := 0x00, out := (e.push (encPadSymbol e ++ encMarker m)).out }
  else
    let x := Config.encFlushOutside e.off e.acc e.out m
    ⟨x.1, x.2.1, x.2.2⟩

/-- `ENC.BYTE b`: response `Ack` (R90). -/
def execEncByte (b : Byte) (s : State) : Host.Outcome State Fault Refusal :=
  .next ((s.setEnc (encAfterByte b s.enc)).respond .ack)

/-- `ENC.FLUSH m`: response `Ack` (R91). -/
def execEncFlush (m : Bool) (s : State) : Host.Outcome State Fault Refusal :=
  .next ((s.setEnc (encAfterFlush m s.enc)).respond .ack)

/-- `ENC.DRAIN`: the whole queue is the response and the queue is emptied (R92). -/
def execEncDrain (s : State) : Host.Outcome State Fault Refusal :=
  .next ((s.setEnc s.enc.emptied).respond (.chars s.enc.out))

end Sys2Proof.Machine
end

