-- ==== Sys2Proof/Machine/Symtab.lean ====
section
/-!
DEFINITION. SYMTAB's two commands: `SYM.FWD` and `SYM.REV` (`40_symtab.md` R70, R71). They write nothing.
-/

namespace Sys2Proof.Machine

/-- The response of `SYM.REV ch`: the REV entry, split into found and value (R71). -/
def revResponse (ch : CharCode) : Response :=
  if revFound (memReadRev ch) then .found (revValue (memReadRev ch)) else .notFound

/-- `SYM.FWD v`: response `Char(ALPHABET[v])` (R70). -/
def execSymFwd (v : SymVal) (s : State) : Host.Outcome State Fault Refusal :=
  .next (s.respond (.char (memReadFwd v)))

/-- `SYM.REV ch`: response `Found(v)` or `NotFound` (R71). -/
def execSymRev (ch : CharCode) (s : State) : Host.Outcome State Fault Refusal :=
  .next (s.respond (revResponse ch))

end Sys2Proof.Machine
end

