-- ==== Sys2Proof/Machine/Dispatch.lean ====
section
/-!
DEFINITION. The meaning of each command (`30_encoding.md` R52): one arm per constructor, one direct call each.
-/

namespace Sys2Proof.Machine

def exec (i : Instr) (s : State) : Host.Outcome State Fault Refusal :=
  match i with
  | .encByte b => Sys2Proof.Machine.execEncByte b s
  | .encFlush m => Sys2Proof.Machine.execEncFlush m s
  | .encDrain => Sys2Proof.Machine.execEncDrain s
  | .decChar ch => Sys2Proof.Machine.execDecChar ch s
  | .decFlush m => Sys2Proof.Machine.execDecFlush m s
  | .decDrain => Sys2Proof.Machine.execDecDrain s
  | .symFwd v => Sys2Proof.Machine.execSymFwd v s
  | .symRev ch => Sys2Proof.Machine.execSymRev ch s

end Sys2Proof.Machine
end

