-- ==== Sys2Proof/Machine/Port.lean ====
section
/-!
DEFINITION. The command port (`00_scope.md` R7, R8): what one event of the host does to the block, and what the block does when
nothing is presented.
-/

namespace Sys2Proof.Machine

/-- One command word: the command it spells is executed; a reserved word is answered `Err` and changes nothing (R56; a next
state, not a refusal of the model: log 11). -/
def presentWord (w : CommandWord) (s : State) : Host.Outcome State Fault Refusal :=
  match decode w with
  | .ok i => exec i s
  | .error _ => .next (answerErr s)

/-- One event of the host: a command word (R7), or RESET between two commands (R180, R181). -/
def takeEvent (ev : HostEvent) (s : State) : Host.Outcome State Fault Refusal :=
  match ev with
  | .command w => presentWord w s
  | .reset => .next (resetEvent s)

/-- The list of events is used up: the block is at rest (`70_reset_and_hazards.md` R196, log 3). -/
def atRest (s : State) : Host.Outcome State Fault Refusal := .next s

/-- A number presented at the 12-bit port ahead of what is still to come. A number of more than 12 bits cannot be presented
(R50, log 7). -/
def queueWord (n : Nat) (s : State) : State :=
  if n < 4096 then s.setInput (.command (BitVec.ofNat 12 n) :: s.input) else s

end Sys2Proof.Machine
end

