-- ==== Sys2Proof/Machine/Step.lean ====
section
/-!
DEFINITION. One step: the block takes the next event of the host, head first (`10_state.md` R12, `20_memory.md` R38), and
completes it (`00_scope.md` R7).
-/

namespace Sys2Proof.Machine

/-- One step of the block. -/
def step (s : State) : Host.Outcome State Fault Refusal :=
  match s.input with
  | [] => atRest s
  | ev :: rest => takeEvent ev (s.setInput rest)

/-- `s` with the command word that the low `nbits` bits of `w` spell presented next (log 7). -/
def State.withFetchWord (s : State) (nbits w : Nat) : State := queueWord (w % 2 ^ nbits) s

end Sys2Proof.Machine
end

