-- ==== Sys2Proof/Machine/Composites.lean ====
section
/-!
DEFINITION. The composites (`30_encoding.md` R59, `43_composites_and_laws.md` R130 to R135): SRC1's public calls as lists of
the eight commands, and running such a list. They are pseudo-instructions: they have no command word of their own.
-/

namespace Sys2Proof.Machine

/-- The pseudo-instructions (R59). -/
inductive Pseudo where
  | encIngest (x : List Byte)
  | encFinish (m : Bool)
  | decIngest (t : List CharCode)
  | decFinish (m : Bool)
  | encode (x : List Byte)
  | decode (t : List CharCode)
deriving DecidableEq, Repr

/-- `BYTES(x)`: one `ENC.BYTE` per byte. -/
def bytesCommands (x : List Byte) : List Instr := x.map .encByte

/-- `CHARS(t)`: one `DEC.CHAR` per character. -/
def charsCommands (t : List CharCode) : List Instr := t.map .decChar

/-- The expansion of a pseudo-instruction (R130 to R135). -/
def Pseudo.expand : Pseudo → List Instr
  | .encIngest x => bytesCommands x ++ [.encDrain]
  | .encFinish m => [.encFlush m, .encDrain]
  | .decIngest t => charsCommands t ++ [.decDrain]
  | .decFinish m => [.decFlush m, .decDrain]
  | .encode x => (bytesCommands x ++ [.encDrain]) ++ [.encFlush false, .encDrain]
  | .decode t => (charsCommands t ++ [.decDrain]) ++ [.decFlush false, .decDrain]

/-- `Run(s, cmds)`: the commands in order (`43_composites_and_laws.md`, "Notation for this file"). -/
def runCommands : List Instr → State → Host.Outcome State Fault Refusal
  | [], s => .next s
  | i :: rest, s =>
    match exec i s with
    | .next t => runCommands rest t
    | .fault r => .fault r
    | .refused r => .refused r

/-- The events by which the host presents a list of commands (`70_reset_and_hazards.md` R196). -/
def commandEvents (cmds : List Instr) : List HostEvent := cmds.map fun i => .command (Sys2Proof.encode i)

/-- `Resps`: the responses returned between two states of one run (log 2). -/
def newResponses (s t : State) : List Response := t.responses.drop s.responses.length

/-- The bytes that a list of commands gives to the encoder, in order (`41_encoder.md` R94). -/
def bytesGiven (cmds : List Instr) : List Byte :=
  cmds.filterMap fun
    | .encByte b => some b
    | .encFlush _ | .encDrain | .decChar _ | .decFlush _ | .decDrain | .symFwd _ | .symRev _ => none

/-- The characters that a list of commands gives to the decoder, in order (`42_decoder.md` R114). -/
def charsGiven (cmds : List Instr) : List CharCode :=
  cmds.filterMap fun
    | .decChar ch => some ch
    | .encByte _ | .encFlush _ | .encDrain | .decFlush _ | .decDrain | .symFwd _ | .symRev _ => none

/-- The characters a response carries. -/
def Response.charsPart : Response → List CharCode
  | .chars cs => cs
  | .ack | .bytes _ | .char _ | .found _ | .notFound | .err => []

/-- The bytes a response carries. -/
def Response.bytesPart : Response → List Byte
  | .bytes bs => bs
  | .ack | .chars _ | .char _ | .found _ | .notFound | .err => []

/-- The joined `Chars` responses returned between two states: the result of an encoder composite (R130, R131, R134). -/
def charsResult (s t : State) : List CharCode := (newResponses s t).flatMap Response.charsPart

/-- The joined `Bytes` responses returned between two states: the result of a decoder composite (R132, R133, R135). -/
def bytesResult (s t : State) : List Byte := (newResponses s t).flatMap Response.bytesPart

end Sys2Proof.Machine
end

