-- ==== Sys2Proof/Machine/Assembler.lean ====
section
/-!
DEFINITION. The assembler syntax of `30_encoding.md` R58 and R59: one line of text, as 8-bit character codes, to the commands it
stands for, and a command's own line. It is no part of the block; the block takes command words.
-/

namespace Sys2Proof.Machine

/-- The character codes of an ASCII text (`00_scope.md` section 5, `93_implementation_defined.md` G4). -/
def ascii (s : String) : List CharCode := s.toList.map fun c => BitVec.ofNat 8 c.toNat

/-- A token of a line: a run of plain characters, a quoted character, a quoted string, a comma. -/
inductive Token where
  | word (cs : List CharCode)
  | quotedChar (c : CharCode)
  | quotedString (cs : List CharCode)
  | comma
deriving DecidableEq, Repr

/-- Where the reading of a line stands: between tokens, inside a word, inside a string, or after an opening single quote with
the character read, if any. Words and strings are kept last character first. -/
inductive LexState where
  | between
  | inWord (cs : List CharCode)
  | inString (cs : List CharCode)
  | inChar (c : Option CharCode)
deriving DecidableEq, Repr

/-- Space or tab. -/
def isBlank (c : CharCode) : Bool := c = 0x20 || c = 0x09

/-- The tokens of a line. `;` (0x3B) starts a comment (R58), but not inside quotes (log 10). -/
def tokens : LexState → List CharCode → Option (List Token)
  | .between, [] => some []
  | .inWord cs, [] => some [.word cs.reverse]
  | .inString _, [] => none
  | .inChar _, [] => none
  | .between, c :: rest =>
    if isBlank c then tokens .between rest
    else if c = 0x3B then some []
    else if c = 0x2C then (tokens .between rest).map (.comma :: ·)
    else if c = 0x27 then tokens (.inChar none) rest
    else if c = 0x22 then tokens (.inString []) rest
    else tokens (.inWord [c]) rest
  | .inWord cs, c :: rest =>
    if isBlank c then (tokens .between rest).map (.word cs.reverse :: ·)
    else if c = 0x3B then some [.word cs.reverse]
    else if c = 0x2C then (tokens .between rest).map fun ts => .word cs.reverse :: .comma :: ts
    else if c = 0x27 ∨ c = 0x22 then none
    else tokens (.inWord (c :: cs)) rest
  | .inString cs, c :: rest =>
    if c = 0x22 then (tokens .between rest).map (.quotedString cs.reverse :: ·) else tokens (.inString (c :: cs)) rest
  | .inChar none, c :: rest => tokens (.inChar (some c)) rest
  | .inChar (some q), c :: rest => if c = 0x27 then (tokens .between rest).map (.quotedChar q :: ·) else none

/-- The value of a digit in a base of at most 16. -/
def digitValue (base : Nat) (c : CharCode) : Option Nat :=
  let n := c.toNat
  let d := if 0x30 ≤ n ∧ n ≤ 0x39 then n - 0x30
    else if 0x41 ≤ n ∧ n ≤ 0x46 then n - 0x41 + 10
    else if 0x61 ≤ n ∧ n ≤ 0x66 then n - 0x61 + 10 else 16
  if d < base then some d else none

/-- A number with at least one digit. -/
def digitsValue (base : Nat) : List CharCode → Option Nat
  | [] => none
  | cs => cs.foldlM (fun a c => (digitValue base c).map (base * a + ·)) 0

/-- A number: `0x6C`, `108` or `0b01101100` (R58). -/
def numberValue (cs : List CharCode) : Option Nat :=
  if cs.take 2 = [0x30, 0x78] then digitsValue 16 (cs.drop 2)
  else if cs.take 2 = [0x30, 0x62] then digitsValue 2 (cs.drop 2)
  else digitsValue 10 cs

/-- The values of an operand: one for a number or a quoted character, its characters' codes for a string (R58, R59). -/
def Token.operandValues : Token → Option (List Nat)
  | .word cs => (numberValue cs).map ([·])
  | .quotedChar c => some [c.toNat]
  | .quotedString cs => some (cs.map BitVec.toNat)
  | .comma => none

/-- Items separated by commas: numbers and quoted characters. -/
def listItems : List Token → Option (List Nat)
  | [.word cs] => Token.operandValues (.word cs)
  | [.quotedChar c] => Token.operandValues (.quotedChar c)
  | .word cs :: .comma :: rest => (numberValue cs).bind fun n => (listItems rest).map (n :: ·)
  | .quotedChar c :: .comma :: rest => (listItems rest).map (c.toNat :: ·)
  | _ => none

/-- An operand list of a pseudo-instruction: nothing, a string alone, or items separated by commas (R59). -/
def operandList : List Token → Option (List Byte)
  | [] => some []
  | [.quotedString cs] => some cs
  | ts => (listItems ts).bind fun ns => if ns.all (· < 256) then some (ns.map (BitVec.ofNat 8)) else none

/-- A number below a bound. -/
def boundedNumber (bound : Nat) : List Token → Option Nat
  | [.word cs] => (numberValue cs).bind fun n => if n < bound then some n else none
  | _ => none

/-- A byte or character operand: a number below 256 or a quoted character (R58). -/
def byteOperand : List Token → Option Byte
  | [.quotedChar c] => some c
  | ts => (boundedNumber 256 ts).map (BitVec.ofNat 8)

/-- A marker flag: `0` or `1` (R58). -/
def flagOperand : List Token → Option Bool
  | [.word [0x30]] => some false
  | [.word [0x31]] => some true
  | _ => none

/-- The marker flag of a flush; no operand means `m = 0` (R58). -/
def flushOperand : List Token → Option Bool
  | [] => some false
  | ts => flagOperand ts

/-- The commands of a mnemonic and its operand tokens (R52, R58, R59). -/
def assembleTokens (mnemonic : List CharCode) (ops : List Token) : Option (List Instr) :=
  if mnemonic = ascii "ENC.BYTE" then (byteOperand ops).map ([.encByte ·])
  else if mnemonic = ascii "ENC.FLUSH" then (flushOperand ops).map ([.encFlush ·])
  else if mnemonic = ascii "ENC.DRAIN" then (if ops = [] then some [.encDrain] else none)
  else if mnemonic = ascii "DEC.CHAR" then (byteOperand ops).map ([.decChar ·])
  else if mnemonic = ascii "DEC.FLUSH" then (flushOperand ops).map ([.decFlush ·])
  else if mnemonic = ascii "DEC.DRAIN" then (if ops = [] then some [.decDrain] else none)
  else if mnemonic = ascii "SYM.FWD" then (boundedNumber 32 ops).map fun n => [.symFwd (BitVec.ofNat 5 n)]
  else if mnemonic = ascii "SYM.REV" then (byteOperand ops).map ([.symRev ·])
  else if mnemonic = ascii "ENC.INGEST" then (operandList ops).map fun x => (Pseudo.encIngest x).expand
  else if mnemonic = ascii "ENC.FINISH" then (flagOperand ops).map fun m => (Pseudo.encFinish m).expand
  else if mnemonic = ascii "DEC.INGEST" then (operandList ops).map fun t => (Pseudo.decIngest t).expand
  else if mnemonic = ascii "DEC.FINISH" then (flagOperand ops).map fun m => (Pseudo.decFinish m).expand
  else if mnemonic = ascii "ENCODE" then (operandList ops).map fun x => (Pseudo.encode x).expand
  else if mnemonic = ascii "DECODE" then (operandList ops).map fun t => (Pseudo.decode t).expand
  else none

/-- The commands of one line; a line that is blank or only a comment has none (R58). -/
def assembleLine (line : List CharCode) : Option (List Instr) :=
  (tokens .between line).bind fun
    | [] => some []
    | .word mnemonic :: ops => assembleTokens mnemonic ops
    | _ => none

/-- A hexadecimal digit, `0` to `9` and `A` to `F`. -/
def hexDigit (d : Nat) : CharCode := BitVec.ofNat 8 (if d < 10 then 0x30 + d else 0x37 + d)

/-- A number of two hexadecimal digits, `0x6C`. -/
def hexNumber (n : Nat) : List CharCode := [0x30, 0x78, hexDigit (n / 16), hexDigit (n % 16)]

/-- A marker flag, `0` or `1`. -/
def flagText (m : Bool) : List CharCode := if m then [0x31] else [0x30]

/-- The line of a command: its mnemonic, and its operand if it has one (R58). -/
def asmLine : Instr → List CharCode
  | .encByte b => ascii "ENC.BYTE " ++ hexNumber b.toNat
  | .encFlush m => ascii "ENC.FLUSH " ++ flagText m
  | .encDrain => ascii "ENC.DRAIN"
  | .decChar ch => ascii "DEC.CHAR " ++ hexNumber ch.toNat
  | .decFlush m => ascii "DEC.FLUSH " ++ flagText m
  | .decDrain => ascii "DEC.DRAIN"
  | .symFwd v => ascii "SYM.FWD " ++ hexNumber v.toNat
  | .symRev ch => ascii "SYM.REV " ++ hexNumber ch.toNat

end Sys2Proof.Machine
end

