-- ==== Sys2Proof/Machine/Bitstream.lean ====
section
/-!
DEFINITION. The bitstreams of `20_memory.md` R33 and R34: the two views of one stream of bits, most significant bit first. The
machine does not compute them; the statements about whole messages are written in these terms.
-/

namespace Sys2Proof.Machine

/-- The bits of a value, most significant first. -/
def bitsMsbFirst {n : Nat} (x : BitVec n) : List Bool := (List.range n).map x.getMsbD

/-- The number that a list of bits spells, most significant first. -/
def bitsValue (l : List Bool) : Nat := l.foldl (fun a b => 2 * a + b.toNat) 0

/-- The bitstream of a byte sequence: bytes in arrival order, each most significant bit first (R33). -/
def byteStream (x : List Byte) : List Bool := x.flatMap bitsMsbFirst

/-- The bitstream of a sequence of 5-bit values, each bit 4 first (R34). -/
def symbolStream (vs : List SymVal) : List Bool := vs.flatMap bitsMsbFirst

/-- Group `g` of a bitstream: its bit positions `5g` to `5g + 4`, the first the most significant (R34). -/
def streamGroup (S : List Bool) (g : Nat) : SymVal := BitVec.ofNat 5 (bitsValue ((S.drop (5 * g)).take 5))

/-- Byte `j` of a bitstream: its bit positions `8j` to `8j + 7`, the first the most significant (R34). -/
def streamByte (T : List Bool) (j : Nat) : Byte := BitVec.ofNat 8 (bitsValue ((T.drop (8 * j)).take 8))

/-- The values of the characters that `Lookup` finds, in order (`42_decoder.md` R114). -/
def recognised (t : List CharCode) : List SymVal := t.filterMap lookup

/-- The upper-cased form of a character: each code 0x61 to 0x7A less 0x20, every other code as it is
(`43_composites_and_laws.md` R140). -/
def upperCased (ch : CharCode) : CharCode := if 0x61 ≤ ch.toNat ∧ ch.toNat ≤ 0x7A then ch - 0x20 else ch

end Sys2Proof.Machine
end

