-- ==== Sys2Proof/Machine/Sequential.lean ====
section
/-!
DEFINITION. The informative sequential form of `ENC.BYTE` (`41_encoder.md` section 3): a loop with a working offset that is
positive while a byte is being worked on. It is not what `exec` runs; it is stated equal to it.
-/

namespace Sys2Proof.Machine

/-- The working copies of the loop: the offset (-4 to 8), the accumulator, the symbols emitted. -/
structure SeqWork where
  off : Int
  acc : Nat
  emitted : List CharCode
deriving DecidableEq, Repr

/-- The first line of the loop: join the carry with the byte's top bits, or skip the bits already used. -/
def seqGather (b : Byte) (x : SeqWork) : Nat :=
  if x.off < 0 then x.acc ||| (b.toNat >>> (-x.off).toNat) else (b.toNat <<< x.off.toNat) &&& 0xF8

/-- The loop, for at most `fuel` turns; four turns are enough, since each adds 5 to an offset of at least -4 and it ends
above 3. -/
def seqLoop (b : Byte) : Nat → SeqWork → SeqWork
  | 0, x => x
  | fuel + 1, x =>
    let acc := seqGather b x
    if 3 < x.off then { x with off := x.off - 8, acc := acc }
    else seqLoop b fuel
      { off := x.off + 5, acc := acc, emitted := x.emitted ++ [memReadFwd (BitVec.ofNat 5 (acc >>> 3))] }

/-- The session after one run of the loop for the byte `b`. -/
def encSequential (b : Byte) (e : EncSession) : EncSession :=
  let x := seqLoop b 4 { off := e.off.toInt, acc := e.acc.toNat, emitted := [] }
  { off := BitVec.ofInt 4 x.off, acc := BitVec.ofNat 8 (x.acc &&& 0xFF), out := e.out ++ x.emitted }

end Sys2Proof.Machine
end

