-- ==== Sys2Proof/Safety.lean ====
section
/-!
DEFINITION. What counts as a safe state and a safe run of the block.
-/

namespace Sys2Proof.Machine

/-- The invariant of a state: both sessions meet theirs (`10_state.md` R14, R18). -/
abbrev State.Legal (s : State) : Prop := s.enc.Legal ∧ s.dec.Legal

/-- A run is safe from `s`: after any number of steps the block has stopped at no fault and no refusal (`60_exceptions.md`
R160, `00_scope.md` R7), and is in a legal state (R14, R18). -/
def State.SafeFrom (s : State) : Prop :=
  ∀ n : Nat, ∃ t : State, Host.Core.run Sys2Proof.core n s = .next t ∧ t.Legal

end Sys2Proof.Machine
end

