-- ==== Sys2Proof/Certificates/Slice0/Obligations.lean ====
section
/-!
DEFINITION. The statements about the block, for the provers.

`State.responses` records the responses the spec's commands return (`00_scope.md` R8) and `State.input` the host's events still
to come; both fields are the model's own (logs 1 and 2), and a clause about them says how the model records what the rule says.
`s.Legal` is the invariant of R14 and R18, which the spec makes part of what a state is (R8); no statement about a command's
result rests on what a command does outside it (log 4).
-/

open Sys2Proof Sys2Proof.Machine

/-! ### Reset and the invariants -/

/-- R25, R180: reset holds the six values, and a RESET event gives them from every state, whatever the queues held. -/
def Obligations.ResetGivesTheSixEmptyValues : Prop :=
  (State.reset.enc.off = 0 ∧ State.reset.enc.acc = 0x00 ∧ State.reset.enc.out = [] ∧
    State.reset.dec.cnt = 0 ∧ State.reset.dec.acc = 0x00 ∧ State.reset.dec.out = []) ∧
  ∀ (s : State) (rest : List HostEvent), s.input = .reset :: rest →
    ∃ t, step s = .next t ∧ t.enc.off = 0 ∧ t.enc.acc = 0x00 ∧ t.enc.out = [] ∧
      t.dec.cnt = 0 ∧ t.dec.acc = 0x00 ∧ t.dec.out = []

/-- R14, R18 at reset. -/
def Obligations.ResetStateIsLegal : Prop := State.reset.Legal

/-- R14, R18: the integer form of the two invariants, which the model uses, says what their bit form says. -/
def Obligations.InvariantIntegerFormIsTheBitLayout : Prop :=
  (∀ e : EncSession, e.Legal ↔
    (e.off = 0 ∨ e.off = -1 ∨ e.off = -2 ∨ e.off = -3 ∨ e.off = -4) ∧
    ∀ i, i < 8 - (-e.off.toInt).toNat → e.acc.getLsbD i = false) ∧
  ∀ d : DecSession, d.Legal ↔ ∀ i, i < 8 - d.cnt.toNat → d.acc.getLsbD i = false

/-- R14, R18: every step keeps the invariants, from every state that meets them and on every event. -/
def Obligations.EveryStepKeepsTheInvariants : Prop :=
  ∀ s t : State, s.Legal → step s = .next t → t.Legal

/-- From reset, on any list of host events, and from every legal state: after every number of steps the block has not stopped
and the invariants R14 and R18 hold. That a step answers next once the events are used up is the model's choice (log 3); that it
does at a reserved word is R163 as log 11 reads it. The step lemma of the invariants is `EveryStepKeepsTheInvariants`. -/
def Obligations.EveryRunStaysLegalAndNeverStops : Prop :=
  (∀ evs : List HostEvent, (State.reset.setInput evs).SafeFrom) ∧ ∀ s : State, s.Legal → s.SafeFrom

/-- No step faults or is refused, whatever the event and the state: R160 for the commands, R163 as log 11 reads it for the reserved
words, R180 for RESET; with nothing presented it is the model's choice (log 3). -/
def Obligations.EveryStepGivesANextState : Prop :=
  ∀ s : State, ∃ t, step s = .next t

/-- R160: a step on any of the legal command words answers a next state, whatever its operand and the state. -/
def Obligations.EveryCommandGivesANextState : Prop :=
  ∀ (s : State) (w : CommandWord) (rest : List HostEvent) (i : Instr),
    s.input = .command w :: rest → decode w = .ok i → ∃ t, step s = .next t

/-! ### The command port -/

/-- A step takes the first event and runs the command its word spells. The last two clauses are the model's choice: a RESET event
leaves the later events and the recorded responses (log 9), and with nothing presented the state stays as it is (log 3). -/
def Obligations.StepRunsTheDecodedCommand : Prop :=
  (∀ (s : State) (w : CommandWord) (rest : List HostEvent) (i : Instr),
    s.input = .command w :: rest → decode w = .ok i → step s = exec i (s.setInput rest)) ∧
  (∀ (s : State) (rest : List HostEvent), s.input = .reset :: rest →
    ∃ t, step s = .next t ∧ t.input = rest ∧ t.responses = s.responses) ∧
  ∀ s : State, s.input = [] → step s = .next s

/-- R56, R163: the reserved words are the words that select no row of R52, in the four classes of R56 with their sizes; such a word is answered
`Err`, no item of the block changes, and the next event is taken next. -/
def Obligations.ReservedWordAnswersErrAndChangesNothing : Prop :=
  (∀ w : CommandWord, (∀ r ∈ tableRows, w &&& r.mask ≠ r.value) ↔
    ((w.toNat / 256 ∈ [0x3, 0x7, 0xA, 0xB, 0xC, 0xD, 0xE, 0xF]) ∨
     ((w.toNat / 256 = 0x1 ∨ w.toNat / 256 = 0x5) ∧ 0x02 ≤ w.toNat % 256) ∨
     ((w.toNat / 256 = 0x2 ∨ w.toNat / 256 = 0x6) ∧ w.toNat % 256 ≠ 0x00) ∨
     (w.toNat / 256 = 0x8 ∧ 0x20 ≤ w.toNat % 256))) ∧
  ((List.range 4096).countP (fun n => n / 256 ∈ [0x3, 0x7, 0xA, 0xB, 0xC, 0xD, 0xE, 0xF]) = 2048 ∧
   (List.range 4096).countP (fun n => (n / 256 = 0x1 ∨ n / 256 = 0x5) ∧ 0x02 ≤ n % 256) = 2 * 254 ∧
   (List.range 4096).countP (fun n => (n / 256 = 0x2 ∨ n / 256 = 0x6) ∧ n % 256 ≠ 0x00) = 2 * 255 ∧
   (List.range 4096).countP (fun n => n / 256 = 0x8 ∧ 0x20 ≤ n % 256) = 224) ∧
  ∀ (s : State) (w : CommandWord) (rest : List HostEvent), s.input = .command w :: rest →
    (∀ r ∈ tableRows, w &&& r.mask ≠ r.value) → step s = .next ((s.setInput rest).respond .err)

/-- R54: no word selects two rows, 806 words are legal and 3290 reserved. -/
def Obligations.TableRowsAreDisjointAndCounted : Prop :=
  (∀ w : CommandWord, ∀ r ∈ tableRows, ∀ q ∈ tableRows, r.selectedBy w → q.selectedBy w → r = q) ∧
  (List.range 4096).countP isLegalWord = 806 ∧ (List.range 4096).countP isReservedWord = 3290

/-- Every word that selects a row of R52 decodes to that row's command, with the operand fields of R53; a word that selects none
decodes to no command; and the check of `WellFormed` agrees. -/
def Obligations.DecodeFollowsTheOpcodeTable : Prop :=
  ∀ w : CommandWord,
    (w &&& 0xF00 = 0x000 → decode w = .ok (.encByte (w.extractLsb' 0 8))) ∧
    (w &&& 0xFFE = 0x100 → decode w = .ok (.encFlush (w.getLsbD 0))) ∧
    (w &&& 0xFFF = 0x200 → decode w = .ok .encDrain) ∧
    (w &&& 0xF00 = 0x400 → decode w = .ok (.decChar (w.extractLsb' 0 8))) ∧
    (w &&& 0xFFE = 0x500 → decode w = .ok (.decFlush (w.getLsbD 0))) ∧
    (w &&& 0xFFF = 0x600 → decode w = .ok .decDrain) ∧
    (w &&& 0xFE0 = 0x800 → decode w = .ok (.symFwd (w.extractLsb' 0 5))) ∧
    (w &&& 0xF00 = 0x900 → decode w = .ok (.symRev (w.extractLsb' 0 8))) ∧
    ((∀ r ∈ tableRows, w &&& r.mask ≠ r.value) → ∀ i, decode w ≠ .ok i) ∧
    ((Fields.ofWord w).wellFormed = true ↔ ∃ i, decode w = .ok i)

/-- Decoding an encoded command gives it back, for every command and operand; and each legal word is the encoding of what it
decodes to. -/
def Obligations.DecodeAndEncodeAgree : Prop :=
  (∀ i : Instr, decode (encode i) = .ok i) ∧ ∀ (w : CommandWord) (i : Instr), decode w = .ok i → encode i = w

/-- Words written out in the spec's examples and vectors decode to the commands they stand for. -/
def Obligations.SpecWordsDecodeToTheirCommands : Prop :=
  decode 0x06C = .ok (.encByte 0x6C) ∧ decode 0x101 = .ok (.encFlush true) ∧ decode 0x100 = .ok (.encFlush false) ∧
  decode 0x200 = .ok .encDrain ∧ decode 0x44E = .ok (.decChar 0x4E) ∧ decode 0x501 = .ok (.decFlush true) ∧
  decode 0x600 = .ok .decDrain ∧ decode 0x80D = .ok (.symFwd 13) ∧ decode 0x94F = .ok (.symRev 0x4F)

/-! ### ENC -/

/-- R93, R90: `ENC.BYTE b` for each carry count, the whole next state; and five bytes from `ENC.OFF = 0` append eight symbols
and end with both registers zero. -/
def Obligations.EncByteFollowsTheCarryTable : Prop :=
  (∀ (b : Byte) (s : State), s.Legal →
    (s.enc.off = 0 → exec (.encByte b) s = .next ((s.setEnc
      { off := -3, acc := b.extractLsb' 0 3 ++ 0b00000#5,
        out := s.enc.out ++ [memReadFwd (b.extractLsb' 3 5)] }).respond .ack)) ∧
    (s.enc.off = -1 → exec (.encByte b) s = .next ((s.setEnc
      { off := -4, acc := b.extractLsb' 0 4 ++ 0b0000#4,
        out := s.enc.out ++ [memReadFwd (s.enc.acc.extractLsb' 7 1 ++ b.extractLsb' 4 4)] }).respond .ack)) ∧
    (s.enc.off = -2 → exec (.encByte b) s = .next ((s.setEnc
      { off := 0, acc := 0x00,
        out := s.enc.out ++ [memReadFwd (s.enc.acc.extractLsb' 6 2 ++ b.extractLsb' 5 3),
          memReadFwd (b.extractLsb' 0 5)] }).respond .ack)) ∧
    (s.enc.off = -3 → exec (.encByte b) s = .next ((s.setEnc
      { off := -1, acc := b.extractLsb' 0 1 ++ 0b0000000#7,
        out := s.enc.out ++ [memReadFwd (s.enc.acc.extractLsb' 5 3 ++ b.extractLsb' 6 2),
          memReadFwd (b.extractLsb' 1 5)] }).respond .ack)) ∧
    (s.enc.off = -4 → exec (.encByte b) s = .next ((s.setEnc
      { off := -2, acc := b.extractLsb' 0 2 ++ 0b000000#6,
        out := s.enc.out ++ [memReadFwd (s.enc.acc.extractLsb' 4 4 ++ b.extractLsb' 7 1),
          memReadFwd (b.extractLsb' 2 5)] }).respond .ack))) ∧
  ∀ (x : List Byte) (s : State), s.Legal → s.enc.off = 0 → x.length = 5 →
    ∃ t cs, runCommands (bytesCommands x) s = .next t ∧ t.enc.out = s.enc.out ++ cs ∧ cs.length = 8 ∧
      t.enc.off = 0 ∧ t.enc.acc = 0x00

/-- R95: one `ENC.BYTE` appends one symbol when the carry count is 0 or 1 and two when it is 2, 3 or 4. -/
def Obligations.EncByteAppendsOneOrTwoSymbols : Prop :=
  ∀ (b : Byte) (s : State), s.Legal →
    ∃ t cs, exec (.encByte b) s = .next t ∧ t.enc.out = s.enc.out ++ cs ∧
      cs.length = if s.enc.off = 0 ∨ s.enc.off = -1 then 1 else 2

/-- R91: `ENC.FLUSH m` for each carry count, the whole next state: the carry bits padded with zeros on the low side make one
symbol, then the marker if `m`, and both registers become zero. -/
def Obligations.EncFlushPadsThenMarksThenClears : Prop :=
  ∀ (m : Bool) (s : State), s.Legal →
    (s.enc.off = 0 → exec (.encFlush m) s = .next ((s.setEnc
      { off := 0, acc := 0x00, out := s.enc.out ++ (if m then [0x24] else []) }).respond .ack)) ∧
    (s.enc.off = -1 → exec (.encFlush m) s = .next ((s.setEnc
      { off := 0, acc := 0x00,
        out := s.enc.out ++ [memReadFwd (s.enc.acc.extractLsb' 7 1 ++ 0b0000#4)] ++
          (if m then [0x24] else []) }).respond .ack)) ∧
    (s.enc.off = -2 → exec (.encFlush m) s = .next ((s.setEnc
      { off := 0, acc := 0x00,
        out := s.enc.out ++ [memReadFwd (s.enc.acc.extractLsb' 6 2 ++ 0b000#3)] ++
          (if m then [0x24] else []) }).respond .ack)) ∧
    (s.enc.off = -3 → exec (.encFlush m) s = .next ((s.setEnc
      { off := 0, acc := 0x00,
        out := s.enc.out ++ [memReadFwd (s.enc.acc.extractLsb' 5 3 ++ 0b00#2)] ++
          (if m then [0x24] else []) }).respond .ack)) ∧
    (s.enc.off = -4 → exec (.encFlush m) s = .next ((s.setEnc
      { off := 0, acc := 0x00,
        out := s.enc.out ++ [memReadFwd (s.enc.acc.extractLsb' 4 4 ++ 0b0#1)] ++
          (if m then [0x24] else []) }).respond .ack))

/-- R92, R112: a drain returns its whole queue and empties it, and changes nothing else: the carried bits survive. -/
def Obligations.DrainReturnsAndEmptiesOnlyItsQueue : Prop :=
  ∀ s : State, s.Legal →
    exec .encDrain s = .next
      ((s.setEnc { off := s.enc.off, acc := s.enc.acc, out := [] }).respond (.chars s.enc.out)) ∧
    exec .decDrain s = .next
      ((s.setDec { cnt := s.dec.cnt, acc := s.dec.acc, out := [] }).respond (.bytes s.dec.out))

/-- The informative sequential form of `41_encoder.md` section 3 gives what `ENC.BYTE` gives, from every legal state. -/
def Obligations.SequentialLoopRefinesEncByte : Prop :=
  ∀ (b : Byte) (s : State), s.Legal →
    exec (.encByte b) s = .next ((s.setEnc (encSequential b s.enc)).respond .ack)

/-- R94: the link to the bitstream. From a session with no carry, after any commands without an `ENC.FLUSH` (drains and other
units' commands anywhere among them), what was drained and what is pending together are the symbols of the whole groups of the
bytes' bitstream, the carry bits are its last bits, and a flush completes the last group with zeros. -/
def Obligations.EncoderOutputIsTheByteStreamInGroups : Prop :=
  ∀ (cmds : List Instr) (m : Bool) (s : State), s.Legal → s.enc.off = 0 → (∀ p, Instr.encFlush p ∉ cmds) →
    let x := bytesGiven cmds
    let n := x.length
    let S := byteStream x
    let c := (8 * n) % 5
    ∃ t u, runCommands cmds s = .next t ∧
      charsResult s t ++ t.enc.out =
        s.enc.out ++ (List.range ((8 * n) / 5)).map (fun g => memReadFwd (streamGroup S g)) ∧
      t.enc.off = BitVec.ofInt 4 (-(c : Int)) ∧
      (bitsMsbFirst t.enc.acc).take c = S.drop (8 * n - c) ∧
      exec (.encFlush m) t = .next u ∧
      u.enc.out = t.enc.out ++
        (if 0 < c then
          [memReadFwd (BitVec.ofNat 5 (bitsValue (S.drop (8 * n - c) ++ List.replicate (5 - c) false)))] else []) ++
        (if m then [marker] else []) ∧
      (charsResult s t ++ u.enc.out).length = s.enc.out.length + (8 * n + 4) / 5 + (if m then 1 else 0)

/-- What a command appends to ENC.OUT: `ENC.BYTE` and `ENC.FLUSH` keep the queue and append characters of the canonical alphabet,
or the marker if the command is `ENC.FLUSH 1`; `ENC.DRAIN` leaves no item; the other commands append nothing. -/
def Obligations.EncoderEmitsOnlyTheAlphabetAndTheMarker : Prop :=
  ∀ (i : Instr) (s t : State), s.Legal → exec i s = .next t →
    match i with
    | .encByte _ | .encFlush _ =>
      ∃ cs, t.enc.out = s.enc.out ++ cs ∧ ∀ c ∈ cs, c ∈ alphabet ∨ (c = marker ∧ i = .encFlush true)
    | .encDrain => t.enc.out = []
    | .decChar _ | .decFlush _ | .decDrain | .symFwd _ | .symRev _ => t.enc.out = s.enc.out

/-! ### DEC -/

/-- R113, R110: `DEC.CHAR ch`: noise changes nothing; a recognised character of value `v` for each leftover count, the whole next
state; eight recognised characters from `DEC.CNT = 0` append five bytes and end with both registers zero; and every count is
reached from reset. -/
def Obligations.DecCharFollowsTheLeftoverTable : Prop :=
  (∀ (ch : CharCode) (s : State), s.Legal →
    (lookup ch = none → exec (.decChar ch) s = .next (s.respond .ack)) ∧
    ∀ v : SymVal, lookup ch = some v →
      (s.dec.cnt = 0 → exec (.decChar ch) s = .next ((s.setDec
        { cnt := 5, acc := v ++ 0b000#3, out := s.dec.out }).respond .ack)) ∧
      (s.dec.cnt = 1 → exec (.decChar ch) s = .next ((s.setDec
        { cnt := 6, acc := s.dec.acc.extractLsb' 7 1 ++ v ++ 0b00#2, out := s.dec.out }).respond .ack)) ∧
      (s.dec.cnt = 2 → exec (.decChar ch) s = .next ((s.setDec
        { cnt := 7, acc := s.dec.acc.extractLsb' 6 2 ++ v ++ 0b0#1, out := s.dec.out }).respond .ack)) ∧
      (s.dec.cnt = 3 → exec (.decChar ch) s = .next ((s.setDec
        { cnt := 0, acc := 0x00, out := s.dec.out ++ [s.dec.acc.extractLsb' 5 3 ++ v] }).respond .ack)) ∧
      (s.dec.cnt = 4 → exec (.decChar ch) s = .next ((s.setDec
        { cnt := 1, acc := v.extractLsb' 0 1 ++ 0b0000000#7,
          out := s.dec.out ++ [s.dec.acc.extractLsb' 4 4 ++ v.extractLsb' 1 4] }).respond .ack)) ∧
      (s.dec.cnt = 5 → exec (.decChar ch) s = .next ((s.setDec
        { cnt := 2, acc := v.extractLsb' 0 2 ++ 0b000000#6,
          out := s.dec.out ++ [s.dec.acc.extractLsb' 3 5 ++ v.extractLsb' 2 3] }).respond .ack)) ∧
      (s.dec.cnt = 6 → exec (.decChar ch) s = .next ((s.setDec
        { cnt := 3, acc := v.extractLsb' 0 3 ++ 0b00000#5,
          out := s.dec.out ++ [s.dec.acc.extractLsb' 2 6 ++ v.extractLsb' 3 2] }).respond .ack)) ∧
      (s.dec.cnt = 7 → exec (.decChar ch) s = .next ((s.setDec
        { cnt := 4, acc := v.extractLsb' 0 4 ++ 0b0000#4,
          out := s.dec.out ++ [s.dec.acc.extractLsb' 1 7 ++ v.extractLsb' 4 1] }).respond .ack))) ∧
  (∀ (y : List CharCode) (s : State), s.Legal → s.dec.cnt = 0 → y.length = 8 → (∀ ch ∈ y, (lookup ch).isSome) →
    ∃ t bs, runCommands (charsCommands y) s = .next t ∧ t.dec.out = s.dec.out ++ bs ∧ bs.length = 5 ∧
      t.dec.cnt = 0 ∧ t.dec.acc = 0x00) ∧
  ∀ k : BitVec 3, ∃ (y : List CharCode) (t : State),
    runCommands (charsCommands y) State.reset = .next t ∧ t.dec.cnt = k

/-- R111: `DEC.FLUSH m` zeroes the two registers, leaves the queue, appends no marker, and does the same for both flags. -/
def Obligations.DecFlushDropsTheLeftoverBits : Prop :=
  ∀ (m : Bool) (s : State), s.Legal →
    exec (.decFlush m) s = .next ((s.setDec { cnt := 0, acc := 0x00, out := s.dec.out }).respond .ack)

/-- R114: the link to the bitstream. From a session with no leftover bits, after any commands without a `DEC.FLUSH` (drains and
other units' commands anywhere among them), what was drained and what is pending together are the whole bytes of the recognised
characters' bitstream, the leftover bits are its last bits, and a flush drops them. -/
def Obligations.DecoderOutputIsTheSymbolStreamInBytes : Prop :=
  ∀ (cmds : List Instr) (m : Bool) (s : State), s.Legal → s.dec.cnt = 0 → (∀ p, Instr.decFlush p ∉ cmds) →
    let vs := recognised (charsGiven cmds)
    let q := vs.length
    let T := symbolStream vs
    let k := (5 * q) % 8
    ∃ t u, runCommands cmds s = .next t ∧
      bytesResult s t ++ t.dec.out = s.dec.out ++ (List.range ((5 * q) / 8)).map (streamByte T) ∧
      t.dec.cnt = BitVec.ofNat 3 k ∧
      (bitsMsbFirst t.dec.acc).take k = T.drop (5 * q - k) ∧
      exec (.decFlush m) t = .next u ∧ u.dec.out = t.dec.out ∧ u.dec.cnt = 0 ∧ u.dec.acc = 0x00 ∧
      (bytesResult s t ++ u.dec.out).length = s.dec.out.length + (5 * q) / 8

/-! ### SYMTAB -/

/-- R70, R72: `SYM.FWD v` returns the character of the alphabet `0123456789abcdefghjkmnpqrstvwxyz` at `v` and changes nothing
else; all 32 characters differ. -/
def Obligations.SymFwdReadsTheCanonicalAlphabet : Prop :=
  (∀ (v : SymVal) (s : State), s.Legal → exec (.symFwd v) s = .next (s.respond (.char (BitVec.ofNat 8
    (if v.toNat ≤ 9 then 0x30 + v.toNat
     else if v.toNat ≤ 17 then 0x61 + (v.toNat - 10)
     else if v.toNat ≤ 19 then 0x6A + (v.toNat - 18)
     else if v.toNat ≤ 21 then 0x6D + (v.toNat - 20)
     else if v.toNat ≤ 26 then 0x70 + (v.toNat - 22)
     else 0x76 + (v.toNat - 27)))))) ∧
  ∀ v w : SymVal, memReadFwd v = memReadFwd w → v = w

/-- R71, R77: `SYM.REV ch` returns the entry of the tabulated REV space and changes nothing else; 60 codes are found. -/
def Obligations.SymRevFollowsTheReverseTable : Prop :=
  (List.range 256).countP (fun n => (lookup (BitVec.ofNat 8 n)).isSome) = 60 ∧
  ∀ (ch : CharCode) (s : State), s.Legal → exec (.symRev ch) s = .next (s.respond
    (if 0x30 ≤ ch.toNat ∧ ch.toNat ≤ 0x39 then .found (BitVec.ofNat 5 (ch.toNat - 0x30))
     else if 0x61 ≤ ch.toNat ∧ ch.toNat ≤ 0x68 then .found (BitVec.ofNat 5 (ch.toNat - 0x61 + 10))
     else if 0x41 ≤ ch.toNat ∧ ch.toNat ≤ 0x48 then .found (BitVec.ofNat 5 (ch.toNat - 0x41 + 10))
     else if ch.toNat = 0x69 ∨ ch.toNat = 0x49 then .found 1
     else if ch.toNat = 0x6A ∨ ch.toNat = 0x4A then .found 18
     else if ch.toNat = 0x6B ∨ ch.toNat = 0x4B then .found 19
     else if ch.toNat = 0x6C ∨ ch.toNat = 0x4C then .found 1
     else if ch.toNat = 0x6D ∨ ch.toNat = 0x4D then .found 20
     else if ch.toNat = 0x6E ∨ ch.toNat = 0x4E then .found 21
     else if ch.toNat = 0x6F ∨ ch.toNat = 0x4F then .found 0
     else if 0x70 ≤ ch.toNat ∧ ch.toNat ≤ 0x74 then .found (BitVec.ofNat 5 (ch.toNat - 0x70 + 22))
     else if 0x50 ≤ ch.toNat ∧ ch.toNat ≤ 0x54 then .found (BitVec.ofNat 5 (ch.toNat - 0x50 + 22))
     else if 0x76 ≤ ch.toNat ∧ ch.toNat ≤ 0x7A then .found (BitVec.ofNat 5 (ch.toNat - 0x76 + 27))
     else if 0x56 ≤ ch.toNat ∧ ch.toNat ≤ 0x5A then .found (BitVec.ofNat 5 (ch.toNat - 0x56 + 27))
     else .notFound))

/-- R78: the reverse table inverts the forward table on the canonical alphabet, and also finds the 22 upper-case forms and the 6
alias codes, which are no canonical character; it does not find the marker (R71). -/
def Obligations.ReverseTableInvertsTheForwardTable : Prop :=
  (∀ (v : SymVal) (s : State), s.Legal → exec (.symRev (memReadFwd v)) s = .next (s.respond (.found v))) ∧
  (∀ (v : SymVal) (s : State), s.Legal → 10 ≤ v.toNat →
    exec (.symRev (memReadFwd v - 0x20)) s = .next (s.respond (.found v)) ∧
    ∀ w : SymVal, memReadFwd w ≠ memReadFwd v - 0x20) ∧
  (∀ p ∈ ([(0x6F, 0), (0x4F, 0), (0x69, 1), (0x49, 1), (0x6C, 1), (0x4C, 1)] : List (CharCode × SymVal)),
    ∀ s : State, s.Legal → exec (.symRev p.1) s = .next (s.respond (.found p.2)) ∧ ∀ w : SymVal, memReadFwd w ≠ p.1) ∧
  ∀ s : State, s.Legal → exec (.symRev marker) s = .next (s.respond .notFound)

/-! ### What a command leaves alone, and independence of the units -/

/-- The frame of every command: what R24's table marks untouched is untouched, a queue that is appended to keeps its items in
front, the events still to come stay, and exactly one response is returned. -/
def Obligations.EachCommandWritesOnlyItsOwnItems : Prop :=
  ∀ (i : Instr) (s t : State), s.Legal → exec i s = .next t →
    t.input = s.input ∧ (∃ r, t.responses = s.responses ++ [r]) ∧
    match i with
    | .encByte _ | .encFlush _ => t.dec = s.dec ∧ s.enc.out <+: t.enc.out
    | .encDrain => t.dec = s.dec ∧ t.enc.off = s.enc.off ∧ t.enc.acc = s.enc.acc
    | .decChar _ => t.enc = s.enc ∧ s.dec.out <+: t.dec.out
    | .decFlush _ => t.enc = s.enc ∧ t.dec.out = s.dec.out
    | .decDrain => t.enc = s.enc ∧ t.dec.cnt = s.dec.cnt ∧ t.dec.acc = s.dec.acc
    | .symFwd _ | .symRev _ => t.enc = s.enc ∧ t.dec = s.dec

/-- R9: a command reads and writes only its own unit, so two commands of different units commute: the same sessions and the
same two responses in either order. -/
def Obligations.CommandsOfDifferentUnitsCommute : Prop :=
  (∀ (i : Instr) (s s' t t' : State), s.Legal → s'.Legal → exec i s = .next t → exec i s' = .next t' →
    (i.blockUnit = .enc → s.enc = s'.enc →
      t.enc = t'.enc ∧ t.dec = s.dec ∧ newResponses s t = newResponses s' t') ∧
    (i.blockUnit = .dec → s.dec = s'.dec →
      t.dec = t'.dec ∧ t.enc = s.enc ∧ newResponses s t = newResponses s' t') ∧
    (i.blockUnit = .sym → t.enc = s.enc ∧ t.dec = s.dec ∧ newResponses s t = newResponses s' t')) ∧
  ∀ (i j : Instr) (s : State), s.Legal → i.blockUnit ≠ j.blockUnit →
    ∃ (a b : State) (p q : Response), runCommands [i, j] s = .next a ∧ runCommands [j, i] s = .next b ∧
      a.enc = b.enc ∧ a.dec = b.dec ∧ a.responses = s.responses ++ [p, q] ∧ b.responses = s.responses ++ [q, p]

/-- The carry bits and the leftover bits are hidden: two states with the same output queues answer every command alike. -/
def Obligations.ResponsesDoNotShowTheCarriedBits : Prop :=
  ∀ (i : Instr) (s s' t t' : State), s.Legal → s'.Legal → s.enc.out = s'.enc.out → s.dec.out = s'.dec.out →
    exec i s = .next t → exec i s' = .next t' → newResponses s t = newResponses s' t'

/-- R147: interleaving the two sessions' commands in any way changes no result of either, and after a finish a session works as
it does after reset. -/
def Obligations.SessionsAreIndependentAndReusable : Prop :=
  (∀ (cmds : List Instr) (s : State), s.Legal →
    ∃ t u v, runCommands cmds s = .next t ∧
      runCommands (cmds.filter fun i => i.blockUnit == .enc) s = .next u ∧
      runCommands (cmds.filter fun i => i.blockUnit == .dec) s = .next v ∧
      t.enc = u.enc ∧ charsResult s t = charsResult s u ∧ t.dec = v.dec ∧ bytesResult s t = bytesResult s v) ∧
  (∀ (m : Bool) (x : List Byte) (s : State), s.Legal →
    ∃ a b c, runCommands (Pseudo.encFinish m).expand s = .next a ∧
      runCommands (Pseudo.encode x).expand a = .next b ∧
      runCommands (Pseudo.encode x).expand State.reset = .next c ∧ charsResult a b = charsResult State.reset c) ∧
  ∀ (m : Bool) (y : List CharCode) (s : State), s.Legal →
    ∃ a b c, runCommands (Pseudo.decFinish m).expand s = .next a ∧
      runCommands (Pseudo.decode y).expand a = .next b ∧
      runCommands (Pseudo.decode y).expand State.reset = .next c ∧ bytesResult a b = bytesResult State.reset c

/-! ### Whole messages -/

/-- A list of commands presented at the port runs as the list of their meanings, one step each. -/
def Obligations.PresentedCommandsRunInOrder : Prop :=
  ∀ (cmds : List Instr) (rest : List HostEvent) (s : State), s.input = commandEvents cmds ++ rest →
    Host.Core.run Sys2Proof.core cmds.length s = runCommands cmds (s.setInput rest)

/-- R131, R133: a finish returns `Ack` and one drain, leaves its session in its reset state, and the decoder's does not depend
on the marker flag. -/
def Obligations.FinishReturnsTheSessionToReset : Prop :=
  ∀ (m : Bool) (s : State), s.Legal →
    (∃ t cs, runCommands (Pseudo.encFinish m).expand s = .next t ∧ t.enc = EncSession.reset ∧ t.dec = s.dec ∧
      newResponses s t = [.ack, .chars cs] ∧ s.enc.out <+: cs) ∧
    (∃ t, runCommands (Pseudo.decFinish m).expand s = .next t ∧ t.dec = DecSession.reset ∧ t.enc = s.enc ∧
      newResponses s t = [.ack, .bytes s.dec.out]) ∧
    runCommands (Pseudo.decFinish m).expand s = runCommands (Pseudo.decFinish (!m)).expand s

/-- R134, R135: the result of ENCODE is the single response of the same bytes with one drain after the flush; the second drain of
DECODE is empty. -/
def Obligations.OneShotResultsDoNotDependOnTheFirstDrain : Prop :=
  (∀ (x : List Byte) (s : State), s.enc = EncSession.reset → s.dec.Legal →
    ∃ a b cs, runCommands (Pseudo.encode x).expand s = .next a ∧
      runCommands (bytesCommands x ++ [.encFlush false, .encDrain]) s = .next b ∧
      newResponses s b = List.replicate (x.length + 1) .ack ++ [.chars cs] ∧ charsResult s a = cs) ∧
  ∀ (y : List CharCode) (s : State), s.dec = DecSession.reset → s.enc.Legal →
    ∃ a bs, runCommands (Pseudo.decode y).expand s = .next a ∧
      newResponses s a = List.replicate y.length .ack ++ [.bytes bs, .ack, .bytes []] ∧ bytesResult s a = bs

/-- R137: decoding what the encoder made of a byte sequence gives the byte sequence, for every one; before the decoder's flush
what is left over is the padding, and its bits are zero. -/
def Obligations.EncodeThenDecodeGivesTheBytes : Prop :=
  ∀ (x : List Byte) (s : State), s.enc = EncSession.reset → s.dec = DecSession.reset →
    ∃ a c b, runCommands (Pseudo.encode x).expand s = .next a ∧
      runCommands (charsCommands (charsResult s a)) a = .next c ∧
      c.dec.cnt.toNat = 5 * ((8 * x.length + 4) / 5) - 8 * x.length ∧ c.dec.acc = 0x00 ∧
      runCommands (Pseudo.decode (charsResult s a)).expand a = .next b ∧ bytesResult a b = x

/-- R136: for a message of `5j` bytes the encoder makes exactly `8j` symbols and has nothing to pad, the decoder ends with
`DEC.CNT = 0`, and the bytes come back. -/
def Obligations.AlignedMessagesNeedNoPadding : Prop :=
  ∀ (j : Nat) (x : List Byte) (s : State), s.enc = EncSession.reset → s.dec = DecSession.reset → x.length = 5 * j →
    ∃ p a c b, runCommands (bytesCommands x) s = .next p ∧ p.enc.off = 0 ∧
      runCommands (Pseudo.encode x).expand s = .next a ∧ (charsResult s a).length = 8 * j ∧
      runCommands (charsCommands (charsResult s a)) a = .next c ∧ c.dec.cnt = 0 ∧
      runCommands (Pseudo.decode (charsResult s a)).expand a = .next b ∧ bytesResult a b = x

/-- R146: the encoder's output is in the canonical alphabet, encoding what a text decodes to gives a text that decodes to the
same bytes, and case, aliases, noise, non-zero padding bits and dropped trailing bits are lost on the way. -/
def Obligations.EncoderOutputIsTheNormalForm : Prop :=
  (∀ (x : List Byte) (s : State), s.enc = EncSession.reset → s.dec.Legal →
    ∃ a, runCommands (Pseudo.encode x).expand s = .next a ∧ ∀ c ∈ charsResult s a, c ∈ alphabet) ∧
  (∀ (y : List CharCode) (s : State), s.enc = EncSession.reset → s.dec = DecSession.reset →
    ∃ a b c, runCommands (Pseudo.decode y).expand s = .next a ∧
      runCommands (Pseudo.encode (bytesResult s a)).expand a = .next b ∧
      runCommands (Pseudo.decode (charsResult a b)).expand b = .next c ∧ bytesResult b c = bytesResult s a) ∧
  ∀ p ∈ [(ascii "CR", ascii "cr"), (ascii "co", ascii "c0"), (ascii "c-r", ascii "cr"), (ascii "cs", ascii "cr"),
      (ascii "c", ascii "")],
    ∀ s : State, s.enc = EncSession.reset → s.dec = DecSession.reset →
      ∃ a b, runCommands (Pseudo.decode p.1).expand s = .next a ∧
        runCommands (Pseudo.encode (bytesResult s a)).expand a = .next b ∧ charsResult a b = p.2 ∧ p.2 ≠ p.1

/-- R144: the marker does not disturb decoding. -/
def Obligations.MarkerDoesNotDisturbDecoding : Prop :=
  ∀ (x : List Byte) (s : State), s.enc = EncSession.reset → s.dec = DecSession.reset →
    ∃ a b, runCommands (bytesCommands x ++ [.encFlush true, .encDrain]) s = .next a ∧
      (charsResult s a).getLast? = some marker ∧
      runCommands (Pseudo.decode (charsResult s a)).expand a = .next b ∧ bytesResult a b = x

/-- R138: the encoder's output does not depend on how the bytes are cut into chunks, empty ones among them. -/
def Obligations.EncoderChunkBoundariesAreInvisible : Prop :=
  ∀ (chunks : List (List Byte)) (s : State), s.enc = EncSession.reset → s.dec.Legal →
    ∃ a b, runCommands (chunks.flatMap (fun x => (Pseudo.encIngest x).expand) ++ (Pseudo.encFinish false).expand) s
        = .next a ∧
      runCommands (Pseudo.encode chunks.flatten).expand s = .next b ∧ charsResult s a = charsResult s b

/-- R139: the decoder's output does not depend on how the text is cut into chunks, empty ones among them. -/
def Obligations.DecoderChunkBoundariesAreInvisible : Prop :=
  ∀ (chunks : List (List CharCode)) (s : State), s.dec = DecSession.reset → s.enc.Legal →
    ∃ a b, runCommands (chunks.flatMap (fun y => (Pseudo.decIngest y).expand) ++ (Pseudo.decFinish false).expand) s
        = .next a ∧
      runCommands (Pseudo.decode chunks.flatten).expand s = .next b ∧ bytesResult s a = bytesResult s b

/-- R140: a text and its upper-cased form decode alike; so does any mixture of cases. -/
def Obligations.DecodingIgnoresCase : Prop :=
  ∀ (y z : List CharCode) (s : State), s.Legal →
    (z = y.map upperCased ∨ y.map upperCased = z.map upperCased) →
    ∃ a b, runCommands (Pseudo.decode y).expand s = .next a ∧ runCommands (Pseudo.decode z).expand s = .next b ∧
      bytesResult s a = bytesResult s b ∧ a.dec = b.dec

/-- R141: any `0` may be replaced by `o` or `O`, any `1` by `i`, `I`, `l` or `L`, with no change in the decoded bytes. -/
def Obligations.DecodingAcceptsAliases : Prop :=
  ∀ (y z : List CharCode) (s : State), s.Legal →
    List.Forall₂ (fun c d => d = c ∨ (c = 0x30 ∧ (d = 0x6F ∨ d = 0x4F)) ∨
      (c = 0x31 ∧ (d = 0x69 ∨ d = 0x49 ∨ d = 0x6C ∨ d = 0x4C))) y z →
    ∃ a b, runCommands (Pseudo.decode y).expand s = .next a ∧ runCommands (Pseudo.decode z).expand s = .next b ∧
      bytesResult s a = bytesResult s b ∧ a.dec = b.dec

/-- R142: characters outside the table, anywhere in a text and any number in a row, change no decoded byte. -/
def Obligations.DecodingSkipsNoise : Prop :=
  ∀ (y : List CharCode) (s : State), s.Legal →
    ∃ a b, runCommands (Pseudo.decode y).expand s = .next a ∧
      runCommands (Pseudo.decode (y.filter fun ch => (lookup ch).isSome)).expand s = .next b ∧
      bytesResult s a = bytesResult s b ∧ a.dec = b.dec

/-- R145: the lengths of an encoded message, without and with the marker, and of a decoded text; the numbers of recognised
characters that no encoded message has; and the number of bits a decoded text drops. -/
def Obligations.MessageLengths : Prop :=
  (∀ (x : List Byte) (m : Bool) (s : State), s.enc = EncSession.reset → s.dec.Legal →
    ∃ t, runCommands (bytesCommands x ++ [.encFlush m, .encDrain]) s = .next t ∧
      (charsResult s t).length = (8 * x.length + 4) / 5 + (if m then 1 else 0) ∧
      (recognised (charsResult s t)).length % 8 ∉ [1, 3, 6]) ∧
  ∀ (y : List CharCode) (s : State), s.dec = DecSession.reset → s.enc.Legal →
    ∃ p t, runCommands (charsCommands y) s = .next p ∧ p.dec.cnt.toNat = 5 * (recognised y).length % 8 ∧
      runCommands (Pseudo.decode y).expand s = .next t ∧
      (bytesResult s t).length = 5 * (recognised y).length / 8

/-- R143: the source's one worked example, both ways, from reset. -/
def Obligations.SourceExampleEncodesAndDecodes : Prop :=
  ∃ a b, runCommands (Pseudo.encode
      [0x6C, 0x6F, 0x77, 0x65, 0x72, 0x63, 0x61, 0x73, 0x65, 0x20, 0x55, 0x50,
       0x50, 0x45, 0x52, 0x43, 0x41, 0x53, 0x45, 0x20, 0x31, 0x32, 0x33, 0x34,
       0x35, 0x36, 0x37, 0x20, 0x21, 0x40, 0x23, 0x24, 0x25, 0x5E, 0x26, 0x2A]).expand State.reset = .next a ∧
    charsResult State.reset a = ascii "dhqqesbjcdgq6s90an850haj8d0n6h9064s36d1n6rvj08a04cj2aqh658" ∧
    runCommands (Pseudo.decode (charsResult State.reset a)).expand a = .next b ∧
    bytesResult a b = ascii "lowercase UPPERCASE 1234567 !@#$%^&*"

/-! ### Assembler syntax -/

/-- The line of a command assembles to that command, for every command and operand; a flush with no operand is `m = 0` (R58). -/
def Obligations.AssemblingALineGivesItsCommand : Prop :=
  (∀ i : Instr, assembleLine (asmLine i) = some [i]) ∧
  assembleLine (ascii "ENC.FLUSH") = some [.encFlush false] ∧ assembleLine (ascii "DEC.FLUSH") = some [.decFlush false]
end

