-- ==== Sys2Proof/Laws/State.lean ====
section
/-!
SUPPORT. One lemma per field per update of the state and of the two sessions, so that no later proof unfolds a record update.
-/

namespace Sys2Proof.Machine

@[simp] theorem State.setEnc_enc (s : State) (e : EncSession) : (s.setEnc e).enc = e := rfl
@[simp] theorem State.setEnc_dec (s : State) (e : EncSession) : (s.setEnc e).dec = s.dec := rfl
@[simp] theorem State.setEnc_input (s : State) (e : EncSession) : (s.setEnc e).input = s.input := rfl
@[simp] theorem State.setEnc_responses (s : State) (e : EncSession) : (s.setEnc e).responses = s.responses := rfl

@[simp] theorem State.setDec_enc (s : State) (d : DecSession) : (s.setDec d).enc = s.enc := rfl
@[simp] theorem State.setDec_dec (s : State) (d : DecSession) : (s.setDec d).dec = d := rfl
@[simp] theorem State.setDec_input (s : State) (d : DecSession) : (s.setDec d).input = s.input := rfl
@[simp] theorem State.setDec_responses (s : State) (d : DecSession) : (s.setDec d).responses = s.responses := rfl

@[simp] theorem State.setInput_enc (s : State) (evs : List HostEvent) : (s.setInput evs).enc = s.enc := rfl
@[simp] theorem State.setInput_dec (s : State) (evs : List HostEvent) : (s.setInput evs).dec = s.dec := rfl
@[simp] theorem State.setInput_input (s : State) (evs : List HostEvent) : (s.setInput evs).input = evs := rfl
@[simp] theorem State.setInput_responses (s : State) (evs : List HostEvent) :
    (s.setInput evs).responses = s.responses := rfl

@[simp] theorem State.respond_enc (s : State) (r : Response) : (s.respond r).enc = s.enc := rfl
@[simp] theorem State.respond_dec (s : State) (r : Response) : (s.respond r).dec = s.dec := rfl
@[simp] theorem State.respond_input (s : State) (r : Response) : (s.respond r).input = s.input := rfl
@[simp] theorem State.respond_responses (s : State) (r : Response) :
    (s.respond r).responses = s.responses ++ [r] := rfl

@[simp] theorem EncSession.push_off (e : EncSession) (cs : List CharCode) : (e.push cs).off = e.off := rfl
@[simp] theorem EncSession.push_acc (e : EncSession) (cs : List CharCode) : (e.push cs).acc = e.acc := rfl
@[simp] theorem EncSession.push_out (e : EncSession) (cs : List CharCode) : (e.push cs).out = e.out ++ cs := rfl
@[simp] theorem EncSession.emptied_off (e : EncSession) : e.emptied.off = e.off := rfl
@[simp] theorem EncSession.emptied_acc (e : EncSession) : e.emptied.acc = e.acc := rfl
@[simp] theorem EncSession.emptied_out (e : EncSession) : e.emptied.out = [] := rfl

@[simp] theorem DecSession.push_cnt (d : DecSession) (bs : List Byte) : (d.push bs).cnt = d.cnt := rfl
@[simp] theorem DecSession.push_acc (d : DecSession) (bs : List Byte) : (d.push bs).acc = d.acc := rfl
@[simp] theorem DecSession.push_out (d : DecSession) (bs : List Byte) : (d.push bs).out = d.out ++ bs := rfl
@[simp] theorem DecSession.emptied_cnt (d : DecSession) : d.emptied.cnt = d.cnt := rfl
@[simp] theorem DecSession.emptied_acc (d : DecSession) : d.emptied.acc = d.acc := rfl
@[simp] theorem DecSession.emptied_out (d : DecSession) : d.emptied.out = [] := rfl

@[simp] theorem answerErr_enc (s : State) : (answerErr s).enc = s.enc := rfl
@[simp] theorem answerErr_dec (s : State) : (answerErr s).dec = s.dec := rfl
@[simp] theorem answerErr_input (s : State) : (answerErr s).input = s.input := rfl
@[simp] theorem answerErr_responses (s : State) : (answerErr s).responses = s.responses ++ [.err] := rfl

@[simp] theorem resetEvent_enc (s : State) : (resetEvent s).enc = EncSession.reset := rfl
@[simp] theorem resetEvent_dec (s : State) : (resetEvent s).dec = DecSession.reset := rfl
@[simp] theorem resetEvent_input (s : State) : (resetEvent s).input = s.input := rfl
@[simp] theorem resetEvent_responses (s : State) : (resetEvent s).responses = s.responses := rfl

end Sys2Proof.Machine
end

