-- ==== Sys2Proof/Laws/Exec.lean ====
section
/-!
SUPPORT. Everything a command can do, said once: its effect on each session and its response are functions of that session and
the command; the events to come stay. Then the same of a list of commands, and what one step can do.
-/

namespace Sys2Proof.Machine

/-- A command's effect on the encoder session. -/
def encEffect : Instr → EncSession → EncSession
  | .encByte b => encAfterByte b
  | .encFlush m => encAfterFlush m
  | .encDrain => EncSession.emptied
  | .decChar _ | .decFlush _ | .decDrain | .symFwd _ | .symRev _ => id

/-- A command's effect on the decoder session. -/
def decEffect : Instr → DecSession → DecSession
  | .decChar ch => decAfterChar ch
  | .decFlush _ => decAfterFlush
  | .decDrain => DecSession.emptied
  | .encByte _ | .encFlush _ | .encDrain | .symFwd _ | .symRev _ => id

/-- A command's response, from the two queues alone. -/
def answerOf (i : Instr) (cs : List CharCode) (bs : List Byte) : Response :=
  match i with
  | .encByte _ | .encFlush _ | .decChar _ | .decFlush _ => .ack
  | .encDrain => .chars cs
  | .decDrain => .bytes bs
  | .symFwd v => .char (memReadFwd v)
  | .symRev ch => revResponse ch

/-- The whole effect of a command. -/
theorem exec_eq (i : Instr) (s : State) :
    exec i s = .next
      { enc := encEffect i s.enc, dec := decEffect i s.dec, input := s.input,
        responses := s.responses ++ [answerOf i s.enc.out s.dec.out] } := by
  cases i <;> rfl

theorem exec_next_iff {i : Instr} {s t : State} :
    exec i s = .next t ↔ t =
      { enc := encEffect i s.enc, dec := decEffect i s.dec, input := s.input,
        responses := s.responses ++ [answerOf i s.enc.out s.dec.out] } := by
  rw [exec_eq]
  constructor
  · intro h; exact (Host.Outcome.next.inj h).symm
  · rintro rfl; rfl

/-- The encoder session after a list of commands. -/
def encRun (cmds : List Instr) (e : EncSession) : EncSession := cmds.foldl (fun e i => encEffect i e) e

/-- The decoder session after a list of commands. -/
def decRun (cmds : List Instr) (d : DecSession) : DecSession := cmds.foldl (fun d i => decEffect i d) d

/-- The responses of a list of commands. -/
def answersOf : List Instr → EncSession → DecSession → List Response
  | [], _, _ => []
  | i :: rest, e, d => answerOf i e.out d.out :: answersOf rest (encEffect i e) (decEffect i d)

/-- The whole effect of a list of commands. -/
theorem runCommands_eq (cmds : List Instr) (s : State) :
    runCommands cmds s = .next
      { enc := encRun cmds s.enc, dec := decRun cmds s.dec, input := s.input,
        responses := s.responses ++ answersOf cmds s.enc s.dec } := by
  induction cmds generalizing s with
  | nil => simp [runCommands, encRun, decRun, answersOf]
  | cons i rest ih => simp [runCommands, exec_eq, ih, encRun, decRun, answersOf]

theorem encRun_append (xs ys : List Instr) (e : EncSession) : encRun (xs ++ ys) e = encRun ys (encRun xs e) := by
  simp [encRun]

theorem decRun_append (xs ys : List Instr) (d : DecSession) : decRun (xs ++ ys) d = decRun ys (decRun xs d) := by
  simp [decRun]

theorem answersOf_append (xs ys : List Instr) (e : EncSession) (d : DecSession) :
    answersOf (xs ++ ys) e d = answersOf xs e d ++ answersOf ys (encRun xs e) (decRun xs d) := by
  induction xs generalizing e d with
  | nil => rfl
  | cons i rest ih => simp [answersOf, encRun, decRun, ih]

/-- What one step can do, guards included. -/
theorem step_cases (s : State) :
    (s.input = [] ∧ step s = .next s) ∨
    (∃ rest, s.input = .reset :: rest ∧ step s = .next (resetEvent (s.setInput rest))) ∨
    (∃ w rest i, s.input = .command w :: rest ∧ decode w = .ok i ∧ step s = exec i (s.setInput rest)) ∨
    (∃ w rest why, s.input = .command w :: rest ∧ decode w = .error why ∧
      step s = .next (answerErr (s.setInput rest))) := by
  cases hin : s.input with
  | nil => exact .inl ⟨rfl, by simp [step, hin, atRest]⟩
  | cons ev rest =>
    cases ev with
    | reset => exact .inr (.inl ⟨rest, rfl, by simp [step, hin, takeEvent]⟩)
    | command w =>
      cases hw : decode w with
      | ok i => exact .inr (.inr (.inl ⟨w, rest, i, rfl, hw, by simp [step, hin, takeEvent, presentWord, hw]⟩))
      | error why =>
        exact .inr (.inr (.inr ⟨w, rest, why, rfl, hw, by simp [step, hin, takeEvent, presentWord, hw]⟩))

end Sys2Proof.Machine
end

