-- ==== Sys2Proof/Laws/PerInstr.lean ====
section
/-!
SUPPORT. Per instruction: its encoding selects its own row of `30_encoding.md` R52 and no other.
-/

namespace Sys2Proof.Laws.TableRowMatch

/-- The word of an instruction selects exactly the row of its mnemonic. -/
def Statement (i : Instr) : Prop :=
  tableRows.filter (fun r => r.selectedBy (encode i)) = [i.tableRow]

theorem encByte (b : Byte) : Statement (.encByte b) := by unfold Statement; revert b; decide
theorem encFlush (m : Bool) : Statement (.encFlush m) := by unfold Statement; revert m; decide
theorem encDrain : Statement .encDrain := by unfold Statement; decide
theorem decChar (ch : CharCode) : Statement (.decChar ch) := by unfold Statement; revert ch; decide
theorem decFlush (m : Bool) : Statement (.decFlush m) := by unfold Statement; revert m; decide
theorem decDrain : Statement .decDrain := by unfold Statement; decide
theorem symFwd (v : SymVal) : Statement (.symFwd v) := by unfold Statement; revert v; decide
theorem symRev (ch : CharCode) : Statement (.symRev ch) := by unfold Statement; revert ch; decide

end Sys2Proof.Laws.TableRowMatch
end

