-- ==== Sys2Proof/Laws/Repack.lean ====
section
/-!
SUPPORT. The two repackers, one command at a time: the bits of the shared number operations, and `encPack` and `decUnpack` per
carry count as field reads (`41_encoder.md` R93, `42_decoder.md` R113), which later proofs cite instead of unfolding.
-/

namespace Sys2Proof.Machine

/-! ### The bits of the number operations -/

theorem topBits_testBit (acc : Byte) (n p : Nat) : (topBits acc n).testBit p = acc.getLsbD (8 - n + p) := by
  rw [topBits, Nat.testBit_shiftRight, BitVec.testBit_toNat]

theorem joinBits_testBit {w : Nat} (hi p : Nat) (x : BitVec w) :
    (joinBits hi w x.toNat).testBit p = if p < w then x.getLsbD p else hi.testBit (p - w) := by
  rw [joinBits, Nat.testBit_or, Nat.testBit_shiftLeft, BitVec.testBit_toNat]
  split
  · next hp => simp [Nat.not_le.mpr hp]
  · next hp =>
    have hp' : w ≤ p := Nat.le_of_not_lt hp
    simp [hp']

theorem groupOf_getLsbD {i : Nat} (W n j : Nat) (hi : i < 5) :
    (groupOf W n j).getLsbD i = W.testBit (n - 5 * (j + 1) + i) := by
  have h : (0x1F : Nat) = 2 ^ 5 - 1 := rfl
  simp only [groupOf, BitVec.getLsbD_ofNat, hi, h, Nat.testBit_and, Nat.testBit_shiftRight,
    Nat.testBit_two_pow_sub_one, decide_true, Bool.true_and, Bool.and_true]

theorem byteOf_getLsbD {i : Nat} (W k : Nat) (hi : i < 8) :
    (BitVec.ofNat 8 ((W >>> k) &&& 0xFF)).getLsbD i = W.testBit (k + i) := by
  have h : (0xFF : Nat) = 2 ^ 8 - 1 := rfl
  simp only [BitVec.getLsbD_ofNat, hi, h, Nat.testBit_and, Nat.testBit_shiftRight,
    Nat.testBit_two_pow_sub_one, decide_true, Bool.true_and, Bool.and_true]

theorem leftAlign_getLsbD {i : Nat} (W r : Nat) (hi : i < 8) :
    (leftAlign W r).getLsbD i = (decide (8 - r ≤ i) && (decide (i - (8 - r) < r) && W.testBit (i - (8 - r)))) := by
  have h : (0xFF : Nat) = 2 ^ 8 - 1 := rfl
  simp only [leftAlign, BitVec.getLsbD_ofNat, hi, h, Nat.testBit_and, Nat.testBit_shiftLeft,
    Nat.one_shiftLeft, Nat.testBit_two_pow_sub_one, decide_true, Bool.true_and, Bool.and_true]
  ac_rfl

/-! ### `encPack` per carry count (`41_encoder.md` R93) -/

theorem encPack_carry0 (b acc : Byte) (out : List CharCode) :
    encPack b ⟨0, acc, out⟩ =
      { off := -3, acc := b.extractLsb' 0 3 ++ 0b00000#5,
        out := out ++ [memReadFwd (b.extractLsb' 3 5)] } := by
  have hc : carryCount (0) = 0 := by decide
  have hg : List.range ((8 + 0) / 5) = [0] := by decide
  simp only [encPack, encGroups, hc, hg, EncSession.push_out, List.map_cons, List.map_nil, EncSession.mk.injEq,
    List.append_cancel_left_eq, List.cons.injEq, and_true]
  refine ⟨by decide, ?_, congrArg _ ?_⟩ <;>
  · apply BitVec.eq_of_getLsbD_eq
    intro i hi
    simp only [leftAlign_getLsbD, groupOf_getLsbD, hi, joinBits_testBit, topBits_testBit, BitVec.getLsbD_append,
      BitVec.getLsbD_extractLsb']
    interval_cases i <;> simp

theorem encPack_carry1 (b acc : Byte) (out : List CharCode) :
    encPack b ⟨-1, acc, out⟩ =
      { off := -4, acc := b.extractLsb' 0 4 ++ 0b0000#4,
        out := out ++ [memReadFwd (acc.extractLsb' 7 1 ++ b.extractLsb' 4 4)] } := by
  have hc : carryCount (-1) = 1 := by decide
  have hg : List.range ((8 + 1) / 5) = [0] := by decide
  simp only [encPack, encGroups, hc, hg, EncSession.push_out, List.map_cons, List.map_nil, EncSession.mk.injEq,
    List.append_cancel_left_eq, List.cons.injEq, and_true]
  refine ⟨by decide, ?_, congrArg _ ?_⟩ <;>
  · apply BitVec.eq_of_getLsbD_eq
    intro i hi
    simp only [leftAlign_getLsbD, groupOf_getLsbD, hi, joinBits_testBit, topBits_testBit, BitVec.getLsbD_append,
      BitVec.getLsbD_extractLsb']
    interval_cases i <;> simp

theorem encPack_carry2 (b acc : Byte) (out : List CharCode) :
    encPack b ⟨-2, acc, out⟩ =
      { off := 0, acc := 0x00,
        out := out ++ [memReadFwd (acc.extractLsb' 6 2 ++ b.extractLsb' 5 3),
          memReadFwd (b.extractLsb' 0 5)] } := by
  have hc : carryCount (-2) = 2 := by decide
  have hg : List.range ((8 + 2) / 5) = [0, 1] := by decide
  simp only [encPack, encGroups, hc, hg, EncSession.push_out, List.map_cons, List.map_nil, EncSession.mk.injEq,
    List.append_cancel_left_eq, List.cons.injEq, and_true]
  refine ⟨by decide, ?_, congrArg _ ?_, congrArg _ ?_⟩ <;>
  · apply BitVec.eq_of_getLsbD_eq
    intro i hi
    simp only [leftAlign_getLsbD, groupOf_getLsbD, hi, joinBits_testBit, topBits_testBit, BitVec.getLsbD_append,
      BitVec.getLsbD_extractLsb']
    interval_cases i <;> simp

theorem encPack_carry3 (b acc : Byte) (out : List CharCode) :
    encPack b ⟨-3, acc, out⟩ =
      { off := -1, acc := b.extractLsb' 0 1 ++ 0b0000000#7,
        out := out ++ [memReadFwd (acc.extractLsb' 5 3 ++ b.extractLsb' 6 2),
          memReadFwd (b.extractLsb' 1 5)] } := by
  have hc : carryCount (-3) = 3 := by decide
  have hg : List.range ((8 + 3) / 5) = [0, 1] := by decide
  simp only [encPack, encGroups, hc, hg, EncSession.push_out, List.map_cons, List.map_nil, EncSession.mk.injEq,
    List.append_cancel_left_eq, List.cons.injEq, and_true]
  refine ⟨by decide, ?_, congrArg _ ?_, congrArg _ ?_⟩ <;>
  · apply BitVec.eq_of_getLsbD_eq
    intro i hi
    simp only [leftAlign_getLsbD, groupOf_getLsbD, hi, joinBits_testBit, topBits_testBit, BitVec.getLsbD_append,
      BitVec.getLsbD_extractLsb']
    interval_cases i <;> simp

theorem encPack_carry4 (b acc : Byte) (out : List CharCode) :
    encPack b ⟨-4, acc, out⟩ =
      { off := -2, acc := b.extractLsb' 0 2 ++ 0b000000#6,
        out := out ++ [memReadFwd (acc.extractLsb' 4 4 ++ b.extractLsb' 7 1),
          memReadFwd (b.extractLsb' 2 5)] } := by
  have hc : carryCount (-4) = 4 := by decide
  have hg : List.range ((8 + 4) / 5) = [0, 1] := by decide
  simp only [encPack, encGroups, hc, hg, EncSession.push_out, List.map_cons, List.map_nil, EncSession.mk.injEq,
    List.append_cancel_left_eq, List.cons.injEq, and_true]
  refine ⟨by decide, ?_, congrArg _ ?_, congrArg _ ?_⟩ <;>
  · apply BitVec.eq_of_getLsbD_eq
    intro i hi
    simp only [leftAlign_getLsbD, groupOf_getLsbD, hi, joinBits_testBit, topBits_testBit, BitVec.getLsbD_append,
      BitVec.getLsbD_extractLsb']
    interval_cases i <;> simp

/-! ### `decUnpack` per leftover count (`42_decoder.md` R113) -/

theorem decUnpack_left0 (v : SymVal) (acc : Byte) (out : List Byte) :
    decUnpack v ⟨0, acc, out⟩ =
      { cnt := 5, acc := v ++ 0b000#3, out := out } := by
  have hk : (0 : BitVec 3).toNat = 0 := by decide
  have hn : ¬(8 ≤ 0 + 5) := by decide
  simp only [decUnpack, hk, hn, if_false, DecSession.mk.injEq, and_true]
  refine ⟨by decide, ?_⟩
  · apply BitVec.eq_of_getLsbD_eq
    intro i hi
    simp only [leftAlign_getLsbD, hi, joinBits_testBit, topBits_testBit, BitVec.getLsbD_append]
    interval_cases i <;> simp

theorem decUnpack_left1 (v : SymVal) (acc : Byte) (out : List Byte) :
    decUnpack v ⟨1, acc, out⟩ =
      { cnt := 6, acc := acc.extractLsb' 7 1 ++ v ++ 0b00#2, out := out } := by
  have hk : (1 : BitVec 3).toNat = 1 := by decide
  have hn : ¬(8 ≤ 1 + 5) := by decide
  simp only [decUnpack, hk, hn, if_false, DecSession.mk.injEq, and_true]
  refine ⟨by decide, ?_⟩
  · apply BitVec.eq_of_getLsbD_eq
    intro i hi
    simp only [leftAlign_getLsbD, hi, joinBits_testBit, topBits_testBit, BitVec.getLsbD_append,
      BitVec.getLsbD_extractLsb']
    interval_cases i <;> simp

theorem decUnpack_left2 (v : SymVal) (acc : Byte) (out : List Byte) :
    decUnpack v ⟨2, acc, out⟩ =
      { cnt := 7, acc := acc.extractLsb' 6 2 ++ v ++ 0b0#1, out := out } := by
  have hk : (2 : BitVec 3).toNat = 2 := by decide
  have hn : ¬(8 ≤ 2 + 5) := by decide
  simp only [decUnpack, hk, hn, if_false, DecSession.mk.injEq, and_true]
  refine ⟨by decide, ?_⟩
  · apply BitVec.eq_of_getLsbD_eq
    intro i hi
    simp only [leftAlign_getLsbD, hi, joinBits_testBit, topBits_testBit, BitVec.getLsbD_append,
      BitVec.getLsbD_extractLsb']
    interval_cases i <;> simp

theorem decUnpack_left3 (v : SymVal) (acc : Byte) (out : List Byte) :
    decUnpack v ⟨3, acc, out⟩ =
      { cnt := 0, acc := 0x00, out := out ++ [acc.extractLsb' 5 3 ++ v] } := by
  have hk : (3 : BitVec 3).toNat = 3 := by decide
  have hn : 8 ≤ 3 + 5 := by decide
  simp only [decUnpack, hk, hn, if_true, DecSession.push_out, DecSession.mk.injEq,
    List.append_cancel_left_eq, List.cons.injEq, and_true]
  refine ⟨by decide, ?_, ?_⟩ <;>
  · apply BitVec.eq_of_getLsbD_eq
    intro i hi
    simp only [leftAlign_getLsbD, byteOf_getLsbD, hi, joinBits_testBit, topBits_testBit, BitVec.getLsbD_append,
      BitVec.getLsbD_extractLsb']
    interval_cases i <;> simp

theorem decUnpack_left4 (v : SymVal) (acc : Byte) (out : List Byte) :
    decUnpack v ⟨4, acc, out⟩ =
      { cnt := 1, acc := v.extractLsb' 0 1 ++ 0b0000000#7, out := out ++ [acc.extractLsb' 4 4 ++ v.extractLsb' 1 4] } := by
  have hk : (4 : BitVec 3).toNat = 4 := by decide
  have hn : 8 ≤ 4 + 5 := by decide
  simp only [decUnpack, hk, hn, if_true, DecSession.push_out, DecSession.mk.injEq,
    List.append_cancel_left_eq, List.cons.injEq, and_true]
  refine ⟨by decide, ?_, ?_⟩ <;>
  · apply BitVec.eq_of_getLsbD_eq
    intro i hi
    simp only [leftAlign_getLsbD, byteOf_getLsbD, hi, joinBits_testBit, topBits_testBit, BitVec.getLsbD_append,
      BitVec.getLsbD_extractLsb']
    interval_cases i <;> simp

theorem decUnpack_left5 (v : SymVal) (acc : Byte) (out : List Byte) :
    decUnpack v ⟨5, acc, out⟩ =
      { cnt := 2, acc := v.extractLsb' 0 2 ++ 0b000000#6, out := out ++ [acc.extractLsb' 3 5 ++ v.extractLsb' 2 3] } := by
  have hk : (5 : BitVec 3).toNat = 5 := by decide
  have hn : 8 ≤ 5 + 5 := by decide
  simp only [decUnpack, hk, hn, if_true, DecSession.push_out, DecSession.mk.injEq,
    List.append_cancel_left_eq, List.cons.injEq, and_true]
  refine ⟨by decide, ?_, ?_⟩ <;>
  · apply BitVec.eq_of_getLsbD_eq
    intro i hi
    simp only [leftAlign_getLsbD, byteOf_getLsbD, hi, joinBits_testBit, topBits_testBit, BitVec.getLsbD_append,
      BitVec.getLsbD_extractLsb']
    interval_cases i <;> simp

theorem decUnpack_left6 (v : SymVal) (acc : Byte) (out : List Byte) :
    decUnpack v ⟨6, acc, out⟩ =
      { cnt := 3, acc := v.extractLsb' 0 3 ++ 0b00000#5, out := out ++ [acc.extractLsb' 2 6 ++ v.extractLsb' 3 2] } := by
  have hk : (6 : BitVec 3).toNat = 6 := by decide
  have hn : 8 ≤ 6 + 5 := by decide
  simp only [decUnpack, hk, hn, if_true, DecSession.push_out, DecSession.mk.injEq,
    List.append_cancel_left_eq, List.cons.injEq, and_true]
  refine ⟨by decide, ?_, ?_⟩ <;>
  · apply BitVec.eq_of_getLsbD_eq
    intro i hi
    simp only [leftAlign_getLsbD, byteOf_getLsbD, hi, joinBits_testBit, topBits_testBit, BitVec.getLsbD_append,
      BitVec.getLsbD_extractLsb']
    interval_cases i <;> simp

theorem decUnpack_left7 (v : SymVal) (acc : Byte) (out : List Byte) :
    decUnpack v ⟨7, acc, out⟩ =
      { cnt := 4, acc := v.extractLsb' 0 4 ++ 0b0000#4, out := out ++ [acc.extractLsb' 1 7 ++ v.extractLsb' 4 1] } := by
  have hk : (7 : BitVec 3).toNat = 7 := by decide
  have hn : 8 ≤ 7 + 5 := by decide
  simp only [decUnpack, hk, hn, if_true, DecSession.push_out, DecSession.mk.injEq,
    List.append_cancel_left_eq, List.cons.injEq, and_true]
  refine ⟨by decide, ?_, ?_⟩ <;>
  · apply BitVec.eq_of_getLsbD_eq
    intro i hi
    simp only [leftAlign_getLsbD, byteOf_getLsbD, hi, joinBits_testBit, topBits_testBit, BitVec.getLsbD_append,
      BitVec.getLsbD_extractLsb']
    interval_cases i <;> simp

end Sys2Proof.Machine
end

