-- ==== Sys2Proof/Laws/Stream.lean ====
section
/-!
SUPPORT. The repackers as cutters of a bitstream (`20_memory.md` R33, R34): the bits a session holds, followed by the bits of one
input, are cut from the front into whole groups (or a byte), and the rest is what the session holds next.
-/

namespace Sys2Proof.Machine

/-- The carry bits of an encoder session, oldest first (`10_state.md` R14). -/
def EncSession.pending (e : EncSession) : List Bool := (bitsMsbFirst e.acc).take (carryCount e.off)

/-- The leftover bits of a decoder session, oldest first (`10_state.md` R18). -/
def DecSession.pending (d : DecSession) : List Bool := (bitsMsbFirst d.acc).take d.cnt.toNat

/-! ### Lists of bits -/

@[simp] theorem bitsMsbFirst_length {n : Nat} (x : BitVec n) : (bitsMsbFirst x).length = n := by
  simp [bitsMsbFirst]

theorem bitsMsbFirst_byte (x : BitVec 8) : bitsMsbFirst x =
    [x.getLsbD 7, x.getLsbD 6, x.getLsbD 5, x.getLsbD 4, x.getLsbD 3, x.getLsbD 2, x.getLsbD 1, x.getLsbD 0] := by
  simp [bitsMsbFirst, List.range_succ, BitVec.getMsbD_eq_getLsbD]

theorem bitsMsbFirst_symbol (x : BitVec 5) : bitsMsbFirst x =
    [x.getLsbD 4, x.getLsbD 3, x.getLsbD 2, x.getLsbD 1, x.getLsbD 0] := by
  simp [bitsMsbFirst, List.range_succ, BitVec.getMsbD_eq_getLsbD]

theorem bitsValue_symbol (x : SymVal) : BitVec.ofNat 5 (bitsValue (bitsMsbFirst x)) = x := by
  revert x; decide

theorem bitsValue_byte (x : Byte) : BitVec.ofNat 8 (bitsValue (bitsMsbFirst x)) = x := by
  revert x; decide

theorem bitsMsbFirst_ofBits5 (a b c d e : Bool) :
    bitsMsbFirst (BitVec.ofNat 5 (bitsValue [a, b, c, d, e])) = [a, b, c, d, e] := by
  revert a b c d e; decide

theorem streamGroup_append {S : List Bool} {g : Nat} (R : List Bool) (h : 5 * (g + 1) ≤ S.length) :
    streamGroup (S ++ R) g = streamGroup S g := by
  have h1 : 5 * g ≤ S.length := by omega
  have h2 : 5 ≤ (S.drop (5 * g)).length := by simp; omega
  rw [streamGroup, streamGroup, List.drop_append_of_le_length h1, List.take_append_of_le_length h2]

theorem streamByte_append {T : List Bool} {j : Nat} (R : List Bool) (h : 8 * (j + 1) ≤ T.length) :
    streamByte (T ++ R) j = streamByte T j := by
  have h1 : 8 * j ≤ T.length := by omega
  have h2 : 8 ≤ (T.drop (8 * j)).length := by simp; omega
  rw [streamByte, streamByte, List.drop_append_of_le_length h1, List.take_append_of_le_length h2]

theorem streamGroup_drop (S : List Bool) (g h : Nat) : streamGroup (S.drop (5 * g)) h = streamGroup S (g + h) := by
  rw [streamGroup, streamGroup, List.drop_drop, Nat.mul_add]

theorem streamByte_drop (T : List Bool) (j h : Nat) : streamByte (T.drop (8 * j)) h = streamByte T (j + h) := by
  rw [streamByte, streamByte, List.drop_drop, Nat.mul_add]

@[simp] theorem byteStream_nil : byteStream [] = [] := rfl

@[simp] theorem byteStream_append (x y : List Byte) : byteStream (x ++ y) = byteStream x ++ byteStream y := by
  simp [byteStream]

@[simp] theorem byteStream_length (x : List Byte) : (byteStream x).length = 8 * x.length := by
  simp [byteStream, Nat.mul_comm]

@[simp] theorem symbolStream_nil : symbolStream [] = [] := rfl

@[simp] theorem symbolStream_append (x y : List SymVal) :
    symbolStream (x ++ y) = symbolStream x ++ symbolStream y := by
  simp [symbolStream]

@[simp] theorem symbolStream_length (x : List SymVal) : (symbolStream x).length = 5 * x.length := by
  simp [symbolStream, Nat.mul_comm]

/-! ### The invariants, by value of the offset or the count -/

/-- The five legal values of ENC.OFF (R14). -/
theorem EncSession.Legal.off_cases {e : EncSession} (h : e.Legal) :
    e.off = 0 ∨ e.off = -1 ∨ e.off = -2 ∨ e.off = -3 ∨ e.off = -4 := by
  have key : ∀ o : BitVec 4, -4 ≤ o.toInt ∧ o.toInt ≤ 0 → o = 0 ∨ o = -1 ∨ o = -2 ∨ o = -3 ∨ o = -4 := by decide
  exact key _ h.1

/-- The eight values of DEC.CNT (R17). -/
theorem decCount_cases (k : BitVec 3) : k = 0 ∨ k = 1 ∨ k = 2 ∨ k = 3 ∨ k = 4 ∨ k = 5 ∨ k = 6 ∨ k = 7 := by
  revert k; decide

theorem encAfterByte_of_legal {e : EncSession} (h : e.Legal) (b : Byte) : encAfterByte b e = encPack b e := if_pos h

theorem decAfterValue_of_legal {d : DecSession} (h : d.Legal) (v : SymVal) : decAfterValue v d = decUnpack v d :=
  if_pos h

theorem encAfterFlush_of_legal {e : EncSession} (h : e.Legal) (m : Bool) :
    encAfterFlush m e = { off := 0, acc := 0x00, out := e.out ++ (encPadSymbol e ++ encMarker m) } := if_pos h

/-- A session with `r` bits of an input at the top of its register and zeros below meets its invariant. -/
theorem topField_and_mask (x : BitVec 8) (r : Nat) (hr : r ≤ 8) (h : ∀ i, i < 8 - r → x.getLsbD i = false) :
    x.toNat &&& (0xFF >>> r) = 0 := by
  apply Nat.eq_of_testBit_eq
  intro i
  have hm : (0xFF : Nat) = 2 ^ 8 - 1 := rfl
  rw [Nat.testBit_and, BitVec.testBit_toNat, Nat.testBit_shiftRight, hm, Nat.testBit_two_pow_sub_one, Nat.zero_testBit]
  by_cases hi : i < 8 - r
  · simp [h i hi]
  · have : ¬ r + i < 8 := by omega
    simp [this]

theorem field_low_bits {a k i : Nat} (x : BitVec a) (hi : i < k) : (x ++ 0#k).getLsbD i = false := by
  simp [BitVec.getLsbD_append, hi]

theorem EncSession.legal_mk {off : BitVec 4} {acc : Byte} (out : List CharCode) (c : Nat) (hc : c ≤ 8)
    (ho : (-4 ≤ off.toInt ∧ off.toInt ≤ 0) ∧ carryCount off = c) (h : ∀ i, i < 8 - c → acc.getLsbD i = false) :
    EncSession.Legal ⟨off, acc, out⟩ := by
  refine ⟨ho.1, ?_⟩
  show acc.toNat &&& (0xFF >>> carryCount off) = 0
  rw [ho.2]
  exact topField_and_mask acc c hc h

theorem DecSession.legal_mk {cnt : BitVec 3} {acc : Byte} (out : List Byte)
    (h : ∀ i, i < 8 - cnt.toNat → acc.getLsbD i = false) : DecSession.Legal ⟨cnt, acc, out⟩ :=
  topField_and_mask acc cnt.toNat (by omega) h

/-! ### One command -/

theorem pending_carry0 (acc : Byte) (out : List CharCode) :
    EncSession.pending ⟨0, acc, out⟩ = [] := by
  rw [EncSession.pending, bitsMsbFirst_byte]; rfl

theorem pending_carry1 (acc : Byte) (out : List CharCode) :
    EncSession.pending ⟨-1, acc, out⟩ = [acc.getLsbD 7] := by
  rw [EncSession.pending, bitsMsbFirst_byte]; rfl

theorem pending_carry2 (acc : Byte) (out : List CharCode) :
    EncSession.pending ⟨-2, acc, out⟩ = [acc.getLsbD 7, acc.getLsbD 6] := by
  rw [EncSession.pending, bitsMsbFirst_byte]; rfl

theorem pending_carry3 (acc : Byte) (out : List CharCode) :
    EncSession.pending ⟨-3, acc, out⟩ = [acc.getLsbD 7, acc.getLsbD 6, acc.getLsbD 5] := by
  rw [EncSession.pending, bitsMsbFirst_byte]; rfl

theorem pending_carry4 (acc : Byte) (out : List CharCode) :
    EncSession.pending ⟨-4, acc, out⟩ = [acc.getLsbD 7, acc.getLsbD 6, acc.getLsbD 5, acc.getLsbD 4] := by
  rw [EncSession.pending, bitsMsbFirst_byte]; rfl

theorem pending_left0 (acc : Byte) (out : List Byte) :
    DecSession.pending ⟨0, acc, out⟩ =
      [] := by
  rw [DecSession.pending, bitsMsbFirst_byte]; rfl

theorem pending_left1 (acc : Byte) (out : List Byte) :
    DecSession.pending ⟨1, acc, out⟩ =
      [acc.getLsbD 7] := by
  rw [DecSession.pending, bitsMsbFirst_byte]; rfl

theorem pending_left2 (acc : Byte) (out : List Byte) :
    DecSession.pending ⟨2, acc, out⟩ =
      [acc.getLsbD 7, acc.getLsbD 6] := by
  rw [DecSession.pending, bitsMsbFirst_byte]; rfl

theorem pending_left3 (acc : Byte) (out : List Byte) :
    DecSession.pending ⟨3, acc, out⟩ =
      [acc.getLsbD 7, acc.getLsbD 6, acc.getLsbD 5] := by
  rw [DecSession.pending, bitsMsbFirst_byte]; rfl

theorem pending_left4 (acc : Byte) (out : List Byte) :
    DecSession.pending ⟨4, acc, out⟩ =
      [acc.getLsbD 7, acc.getLsbD 6, acc.getLsbD 5, acc.getLsbD 4] := by
  rw [DecSession.pending, bitsMsbFirst_byte]; rfl

theorem pending_left5 (acc : Byte) (out : List Byte) :
    DecSession.pending ⟨5, acc, out⟩ =
      [acc.getLsbD 7, acc.getLsbD 6, acc.getLsbD 5, acc.getLsbD 4, acc.getLsbD 3] := by
  rw [DecSession.pending, bitsMsbFirst_byte]; rfl

theorem pending_left6 (acc : Byte) (out : List Byte) :
    DecSession.pending ⟨6, acc, out⟩ =
      [acc.getLsbD 7, acc.getLsbD 6, acc.getLsbD 5, acc.getLsbD 4, acc.getLsbD 3, acc.getLsbD 2] := by
  rw [DecSession.pending, bitsMsbFirst_byte]; rfl

theorem pending_left7 (acc : Byte) (out : List Byte) :
    DecSession.pending ⟨7, acc, out⟩ =
      [acc.getLsbD 7, acc.getLsbD 6, acc.getLsbD 5, acc.getLsbD 4, acc.getLsbD 3, acc.getLsbD 2, acc.getLsbD 1] := by
  rw [DecSession.pending, bitsMsbFirst_byte]; rfl


/-- `ENC.BYTE` on a legal session: the carry bits and the byte's bits are cut into whole groups, and the rest is carried. -/
theorem encPack_stream {e : EncSession} (h : e.Legal) (b : Byte) :
    (encPack b e).Legal ∧
      (encPack b e).pending = (e.pending ++ bitsMsbFirst b).drop (5 * ((e.pending.length + 8) / 5)) ∧
      (encPack b e).out = e.out ++ (List.range ((e.pending.length + 8) / 5)).map
        fun g => memReadFwd (streamGroup (e.pending ++ bitsMsbFirst b) g) := by
  obtain ⟨off, acc, out⟩ := e
  obtain rfl | rfl | rfl | rfl | rfl : off = 0 ∨ off = -1 ∨ off = -2 ∨ off = -3 ∨ off = -4 := h.off_cases
  · rw [encPack_carry0, pending_carry0, pending_carry3, bitsMsbFirst_byte]
    refine ⟨EncSession.legal_mk _ 3 (by decide) (by decide) fun i hi => field_low_bits _ hi, ?_, ?_⟩
    · simp only [BitVec.getLsbD_append, BitVec.getLsbD_extractLsb']
      simp
    · rw [← bitsValue_symbol (b.extractLsb' 3 5),
        bitsMsbFirst_symbol]
      simp only [BitVec.getLsbD_extractLsb']
      simp [streamGroup]
  · rw [encPack_carry1, pending_carry1, pending_carry4, bitsMsbFirst_byte]
    refine ⟨EncSession.legal_mk _ 4 (by decide) (by decide) fun i hi => field_low_bits _ hi, ?_, ?_⟩
    · simp only [BitVec.getLsbD_append, BitVec.getLsbD_extractLsb']
      simp
    · rw [← bitsValue_symbol (acc.extractLsb' 7 1 ++ b.extractLsb' 4 4),
        bitsMsbFirst_symbol]
      simp only [BitVec.getLsbD_append, BitVec.getLsbD_extractLsb']
      simp [streamGroup]
  · rw [encPack_carry2, pending_carry2, pending_carry0, bitsMsbFirst_byte]
    refine ⟨EncSession.legal_mk _ 0 (by decide) (by decide) fun _ _ => BitVec.getLsbD_zero, ?_, ?_⟩
    · simp
    · rw [← bitsValue_symbol (acc.extractLsb' 6 2 ++ b.extractLsb' 5 3), ← bitsValue_symbol (b.extractLsb' 0 5),
        bitsMsbFirst_symbol, bitsMsbFirst_symbol]
      simp only [BitVec.getLsbD_append, BitVec.getLsbD_extractLsb']
      simp [streamGroup, List.range_succ]
  · rw [encPack_carry3, pending_carry3, pending_carry1, bitsMsbFirst_byte]
    refine ⟨EncSession.legal_mk _ 1 (by decide) (by decide) fun i hi => field_low_bits _ hi, ?_, ?_⟩
    · simp only [BitVec.getLsbD_append, BitVec.getLsbD_extractLsb']
      simp
    · rw [← bitsValue_symbol (acc.extractLsb' 5 3 ++ b.extractLsb' 6 2), ← bitsValue_symbol (b.extractLsb' 1 5),
        bitsMsbFirst_symbol, bitsMsbFirst_symbol]
      simp only [BitVec.getLsbD_append, BitVec.getLsbD_extractLsb']
      simp [streamGroup, List.range_succ]
  · rw [encPack_carry4, pending_carry4, pending_carry2, bitsMsbFirst_byte]
    refine ⟨EncSession.legal_mk _ 2 (by decide) (by decide) fun i hi => field_low_bits _ hi, ?_, ?_⟩
    · simp only [BitVec.getLsbD_append, BitVec.getLsbD_extractLsb']
      simp
    · rw [← bitsValue_symbol (acc.extractLsb' 4 4 ++ b.extractLsb' 7 1), ← bitsValue_symbol (b.extractLsb' 2 5),
        bitsMsbFirst_symbol, bitsMsbFirst_symbol]
      simp only [BitVec.getLsbD_append, BitVec.getLsbD_extractLsb']
      simp [streamGroup, List.range_succ]

/-- `DEC.CHAR` of a recognised character on a legal session: the leftover bits and the value's bits are cut into a byte, if eight
are there, and the rest is left over. -/
theorem decUnpack_stream (d : DecSession) (v : SymVal) :
    (decUnpack v d).Legal ∧
      (decUnpack v d).pending = (d.pending ++ bitsMsbFirst v).drop (8 * ((d.pending.length + 5) / 8)) ∧
      (decUnpack v d).out = d.out ++ (List.range ((d.pending.length + 5) / 8)).map
        (streamByte (d.pending ++ bitsMsbFirst v)) := by
  obtain ⟨cnt, acc, out⟩ := d
  obtain rfl | rfl | rfl | rfl | rfl | rfl | rfl | rfl := decCount_cases cnt
  · rw [decUnpack_left0, pending_left0, pending_left5, bitsMsbFirst_symbol]
    refine ⟨DecSession.legal_mk _ (fun i hi => field_low_bits _ hi), ?_, ?_⟩
    · simp only [BitVec.getLsbD_append]
      simp
    · simp
  · rw [decUnpack_left1, pending_left1, pending_left6, bitsMsbFirst_symbol]
    refine ⟨DecSession.legal_mk _ (fun i hi => field_low_bits _ hi), ?_, ?_⟩
    · simp only [BitVec.getLsbD_append, BitVec.getLsbD_extractLsb']
      simp
    · simp
  · rw [decUnpack_left2, pending_left2, pending_left7, bitsMsbFirst_symbol]
    refine ⟨DecSession.legal_mk _ (fun i hi => field_low_bits _ hi), ?_, ?_⟩
    · simp only [BitVec.getLsbD_append, BitVec.getLsbD_extractLsb']
      simp
    · simp
  · rw [decUnpack_left3, pending_left3, pending_left0, bitsMsbFirst_symbol]
    refine ⟨DecSession.legal_mk _ (fun _ _ => BitVec.getLsbD_zero), ?_, ?_⟩
    · simp
    · rw [← bitsValue_byte (acc.extractLsb' 5 3 ++ v), bitsMsbFirst_byte]
      simp only [BitVec.getLsbD_append, BitVec.getLsbD_extractLsb']
      simp [streamByte]
  · rw [decUnpack_left4, pending_left4, pending_left1, bitsMsbFirst_symbol]
    refine ⟨DecSession.legal_mk _ (fun i hi => field_low_bits _ hi), ?_, ?_⟩
    · simp only [BitVec.getLsbD_append, BitVec.getLsbD_extractLsb']
      simp
    · rw [← bitsValue_byte (acc.extractLsb' 4 4 ++ v.extractLsb' 1 4), bitsMsbFirst_byte]
      simp only [BitVec.getLsbD_append, BitVec.getLsbD_extractLsb']
      simp [streamByte]
  · rw [decUnpack_left5, pending_left5, pending_left2, bitsMsbFirst_symbol]
    refine ⟨DecSession.legal_mk _ (fun i hi => field_low_bits _ hi), ?_, ?_⟩
    · simp only [BitVec.getLsbD_append, BitVec.getLsbD_extractLsb']
      simp
    · rw [← bitsValue_byte (acc.extractLsb' 3 5 ++ v.extractLsb' 2 3), bitsMsbFirst_byte]
      simp only [BitVec.getLsbD_append, BitVec.getLsbD_extractLsb']
      simp [streamByte]
  · rw [decUnpack_left6, pending_left6, pending_left3, bitsMsbFirst_symbol]
    refine ⟨DecSession.legal_mk _ (fun i hi => field_low_bits _ hi), ?_, ?_⟩
    · simp only [BitVec.getLsbD_append, BitVec.getLsbD_extractLsb']
      simp
    · rw [← bitsValue_byte (acc.extractLsb' 2 6 ++ v.extractLsb' 3 2), bitsMsbFirst_byte]
      simp only [BitVec.getLsbD_append, BitVec.getLsbD_extractLsb']
      simp [streamByte]
  · rw [decUnpack_left7, pending_left7, pending_left4, bitsMsbFirst_symbol]
    refine ⟨DecSession.legal_mk _ (fun i hi => field_low_bits _ hi), ?_, ?_⟩
    · simp only [BitVec.getLsbD_append, BitVec.getLsbD_extractLsb']
      simp
    · rw [← bitsValue_byte (acc.extractLsb' 1 7 ++ v.extractLsb' 4 1), bitsMsbFirst_byte]
      simp only [BitVec.getLsbD_append, BitVec.getLsbD_extractLsb']
      simp [streamByte]

end Sys2Proof.Machine
end

