-- ==== Sys2Proof/Laws/Tables.lean ====
section
/-!
SUPPORT. SYMTAB: the REV entry is `lookup` in six bits, and `lookup` inverts the alphabet.
-/

namespace Sys2Proof.Machine

theorem memReadRev_of_none {ch : CharCode} (h : lookup ch = none) : memReadRev ch = 0 := by
  simp [memReadRev, h]

theorem memReadRev_of_some {ch : CharCode} {v : SymVal} (h : lookup ch = some v) : memReadRev ch = 0b1#1 ++ v := by
  simp [memReadRev, h]

theorem revFound_append (v : SymVal) : revFound (0b1#1 ++ v) = true := by
  revert v; decide

theorem revValue_append (v : SymVal) : revValue (0b1#1 ++ v) = v := by
  revert v; decide

/-- The table read of `DEC.CHAR`: noise leaves the session, a recognised character is its value. -/
theorem decAfterChar_eq (ch : CharCode) (d : DecSession) :
    decAfterChar ch d = match lookup ch with
      | some v => decAfterValue v d
      | none => d := by
  unfold decAfterChar
  cases h : lookup ch with
  | none => simp [memReadRev_of_none h, revFound]
  | some v => simp [memReadRev_of_some h, revFound_append, revValue_append]

/-- The response of `SYM.REV` is `lookup`. -/
theorem revResponse_eq (ch : CharCode) :
    revResponse ch = match lookup ch with
      | some v => .found v
      | none => .notFound := by
  unfold revResponse
  cases h : lookup ch with
  | none => simp [memReadRev_of_none h, revFound]
  | some v => simp [memReadRev_of_some h, revFound_append, revValue_append]

/-- `lookup` inverts the alphabet (`40_symtab.md` R78). -/
theorem lookup_memReadFwd (v : SymVal) : lookup (memReadFwd v) = some v := by
  revert v; decide

/-- The marker has no mapping (`00_scope.md` R6). -/
theorem lookup_marker : lookup marker = none := by decide

/-- Every symbol that FWD holds is in the alphabet. -/
theorem memReadFwd_mem (v : SymVal) : memReadFwd v ∈ alphabet := List.get_mem _ _

end Sys2Proof.Machine
end

