-- ==== Sys2Proof/Tests/Slice0.lean ====
section
/-!
SUPPORT. The model's own tests: ill-formed words are refused, words written out from `30_encoding.md` R52 decode to their
commands, single commands give what `95_test_vectors.md` says (V<n> names the vector); then, for each statement that has
hypotheses, a concrete state and operands that meet them together.
-/

namespace Sys2Proof.Tests

open Sys2Proof.Machine

/-- A state with the six items of the block; nothing presented, nothing returned. -/
def block (off : BitVec 4) (acc : Byte) (out : List CharCode) (cnt : BitVec 3) (dacc : Byte) (dout : List Byte) : State :=
  { enc := ⟨off, acc, out⟩, dec := ⟨cnt, dacc, dout⟩, input := [], responses := [] }

/-- A state with an encoder session, and the decoder after reset. -/
def encBlock (off : BitVec 4) (acc : Byte) (out : List CharCode) : State := block off acc out 0 0x00 []

/-- A state with a decoder session, and the encoder after reset. -/
def decBlock (cnt : BitVec 3) (acc : Byte) (out : List Byte) : State := block 0 0x00 [] cnt acc out

/-- The next state of an outcome, if it is one. -/
def nextState {σ φ ρ : Type} : Host.Outcome σ φ ρ → Option σ
  | .next s => some s
  | .fault _ => none
  | .refused _ => none

theorem eq_next {σ φ ρ : Type} {o : Host.Outcome σ φ ρ} {s : σ} (h : nextState o = some s) : o = .next s := by
  cases o <;> simp_all [nextState]

/-! ### WellFormed: each check refuses an ill-formed word (R55, R56) -/

theorem test_wellFormed_refuses_enc_op3 : (Fields.mk 0b00 0b11 0x00).wellFormed = false := by decide
theorem test_wellFormed_refuses_sym_op2 : (Fields.mk 0b10 0b10 0x00).wellFormed = false := by decide
theorem test_wellFormed_refuses_unit3 : (Fields.mk 0b11 0b00 0x00).wellFormed = false := by decide
theorem test_wellFormed_refuses_flush_arg2 : (Fields.mk 0b01 0b01 0x02).wellFormed = false := by decide
theorem test_wellFormed_refuses_drain_arg1 : (Fields.mk 0b00 0b10 0x01).wellFormed = false := by decide
theorem test_wellFormed_refuses_fwd_arg32 : (Fields.mk 0b10 0b00 0x20).wellFormed = false := by decide
theorem test_wellFormed_accepts_the_neighbours :
    (Fields.mk 0b01 0b01 0x01).wellFormed = true ∧ (Fields.mk 0b00 0b10 0x00).wellFormed = true ∧
    (Fields.mk 0b10 0b00 0x1F).wellFormed = true ∧ (Fields.mk 0b10 0b01 0xFF).wellFormed = true := by decide

/-! ### Decode: one word of each row, written out bit by bit from R52 (unit, op, arg) -/

theorem test_decode_encByte : (decode 0b00_00_01101100).toOption = some (.encByte 0x6C) := by decide
theorem test_decode_encFlush : (decode 0b00_01_00000001).toOption = some (.encFlush true) := by decide
theorem test_decode_encDrain : (decode 0b00_10_00000000).toOption = some .encDrain := by decide
theorem test_decode_decChar : (decode 0b01_00_01001110).toOption = some (.decChar 0x4E) := by decide
theorem test_decode_decFlush : (decode 0b01_01_00000000).toOption = some (.decFlush false) := by decide
theorem test_decode_decDrain : (decode 0b01_10_00000000).toOption = some .decDrain := by decide
theorem test_decode_symFwd : (decode 0b10_00_00001101).toOption = some (.symFwd 13) := by decide
theorem test_decode_symRev : (decode 0b10_01_01001111).toOption = some (.symRev 0x4F) := by decide

/-- V13, V62, V63, V64, V110, V111, V112: the nearest refused words. -/
theorem test_decode_refuses_reserved :
    [0x102, 0x201, 0x300, 0x502, 0x601, 0x700, 0x820, 0xA00, 0xC00, 0xFFF].all
      (fun w => (decode (BitVec.ofNat 12 w)).toOption.isNone) = true := by decide

theorem test_decodeTableWord : decodeTableWord 12 0x94F = some (.symRev 0x4F) ∧
    decodeTableWord 16 0x094F = some (.symRev 0x4F) ∧ decodeTableWord 16 0x194F = none ∧
    decodeTableWord 12 0x820 = none := by decide

/-! ### One command, one step: vectors of the spec -/

/-- V42, V44, V45: one symbol, two symbols and no carry, two symbols and one carry bit. -/
theorem test_encByte : nextState (exec (.encByte 0xA7) (encBlock 0 0x00 [])) =
      some ((encBlock (-3) 0xE0 (ascii "m")).respond .ack) ∧
    nextState (exec (.encByte 0xA7) (encBlock (-2) 0xC0 [])) = some ((encBlock 0 0x00 (ascii "x7")).respond .ack) ∧
    nextState (exec (.encByte 0xA7) (encBlock (-3) 0xA0 [])) =
      some ((encBlock (-1) 0x80 (ascii "pk")).respond .ack) := by decide

/-- V43, V46: the other two carry counts. -/
theorem test_encByte_carry1_carry4 : nextState (exec (.encByte 0xA7) (encBlock (-1) 0x80 [])) =
      some ((encBlock (-4) 0x70 (ascii "t")).respond .ack) ∧
    nextState (exec (.encByte 0xA7) (encBlock (-4) 0x90 [])) =
      some ((encBlock (-2) 0xC0 (ascii "k9")).respond .ack) := by decide

/-- V55, V56: zero carry bits still make a pad symbol; the marker comes after it. -/
theorem test_encFlush : nextState (exec (.encFlush false) (encBlock (-3) 0x00 (ascii "0"))) =
      some ((encBlock 0 0x00 (ascii "00")).respond .ack) ∧
    nextState (exec (.encFlush true) (encBlock (-1) 0x80 (ascii "dhq"))) =
      some ((encBlock 0 0x00 (ascii "dhqg$")).respond .ack) := by decide

/-- V53, V54: nothing to pad. -/
theorem test_encFlush_nothing_to_pad : nextState (exec (.encFlush false) (encBlock 0 0x00 [])) =
      some ((encBlock 0 0x00 []).respond .ack) ∧
    nextState (exec (.encFlush true) (encBlock 0 0x00 [])) =
      some ((encBlock 0 0x00 (ascii "$")).respond .ack) := by decide

/-- V60. -/
theorem test_encDrain : nextState (exec .encDrain (encBlock (-1) 0x80 (ascii "dhq"))) =
    some ((encBlock (-1) 0x80 []).respond (.chars (ascii "dhq"))) := by decide

/-- V88, V92, V103: the byte boundary met exactly, five bits of which four are left, an upper-case alias. -/
theorem test_decChar : nextState (exec (.decChar 0x6E) (decBlock 3 0xA0 [])) =
      some ((decBlock 0 0x00 [0xB5]).respond .ack) ∧
    nextState (exec (.decChar 0x6E) (decBlock 7 0xAA [])) = some ((decBlock 4 0x50 [0xAB]).respond .ack) ∧
    nextState (exec (.decChar 0x4C) (decBlock 4 0x00 [])) = some ((decBlock 1 0x80 [0x00]).respond .ack) := by decide

/-- V93, V95, V87: the marker and `u` are noise; no byte yet. -/
theorem test_decChar_noise : nextState (exec (.decChar 0x24) (decBlock 5 0x68 [])) =
      some ((decBlock 5 0x68 []).respond .ack) ∧
    nextState (exec (.decChar 0x75) (decBlock 5 0x68 [])) = some ((decBlock 5 0x68 []).respond .ack) ∧
    nextState (exec (.decChar 0x6E) (decBlock 2 0xC0 [])) = some ((decBlock 7 0xEA []).respond .ack) := by decide

/-- V104, V107: the leftover bits are dropped, the queue stays, no marker is appended. -/
theorem test_decFlush : nextState (exec (.decFlush false) (decBlock 2 0x40 [0x6C])) =
      some ((decBlock 0 0x00 [0x6C]).respond .ack) ∧
    nextState (exec (.decFlush true) (decBlock 7 0xFE [])) = some ((decBlock 0 0x00 []).respond .ack) := by decide

/-- V108. -/
theorem test_decDrain : nextState (exec .decDrain (decBlock 2 0x40 [0x6C])) =
    some ((decBlock 2 0x40 []).respond (.bytes [0x6C])) := by decide

/-- V1, V5, V12. -/
theorem test_symFwd : [(0, 0x30), (18, 0x6A), (31, 0x7A)].all (fun p =>
    nextState (exec (.symFwd p.1) (encBlock (-1) 0x80 [])) ==
      some ((encBlock (-1) 0x80 []).respond (.char p.2))) = true := by decide

/-- V14 to V41: the ends of every range of the reverse table, the aliases, and codes just outside. -/
theorem test_symRev :
    [(0x30, some 0), (0x6F, some 0), (0x4F, some 0), (0x31, some 1), (0x69, some 1), (0x49, some 1), (0x6C, some 1),
      (0x4C, some 1), (0x35, some 5), (0x73, some 25), (0x53, some 25), (0x7A, some 31), (0x5A, some 31)].all
      (fun p => revResponse p.1 == (match p.2 with | some v => Response.found v | none => .notFound)) = true ∧
    [0x75, 0x55, 0x24, 0x20, 0x2D, 0x2F, 0x3A, 0x40, 0x5B, 0x60, 0x7B, 0x00, 0x7F, 0x80, 0xFF].all
      (fun ch => revResponse ch == .notFound) = true := by decide

/-! ### The port -/

/-- V62, V110, V13: a reserved word is answered `Err` and changes nothing. -/
theorem test_step_reserved : [0x102, 0x300, 0x502, 0x820].all (fun w =>
    nextState (step ((block (-1) 0x80 (ascii "dhq") 2 0x40 [0x6C]).setInput [.command (BitVec.ofNat 12 w)])) ==
      some ((block (-1) 0x80 (ascii "dhq") 2 0x40 [0x6C]).respond .err)) = true := by decide

/-- P4 step 13: RESET loses the queues and returns nothing. -/
theorem test_step_reset : nextState (step ((block (-3) 0xC0 (ascii "c") 2 0x00 [0x66]).setInput [.reset])) =
    some State.reset := by decide

/-- P1 step 1: the word placed by `withFetchWord` is the one the next step runs. -/
theorem test_step_withFetchWord : nextState (step (State.reset.withFetchWord 12 0x06C)) =
    some ((encBlock (-3) 0x80 (ascii "d")).respond .ack) := by decide

/-! ### Assembler lines (R58, R59) and pseudo-instructions -/

theorem test_assembleLine : assembleLine (ascii "ENC.BYTE 108 ; l") = some [.encByte 0x6C] ∧
    assembleLine (ascii "DEC.CHAR 'N'") = some [.decChar 0x4E] ∧
    assembleLine (ascii "  ; only a comment") = some [] ∧ assembleLine (ascii "SYM.FWD 32") = none := by decide +kernel

/-- The expansions of `ENC.INGEST 0x6C, 0x6F` and `DECODE "cr"`. -/
theorem test_assembleLine_pseudo : assembleLine (ascii "ENC.INGEST 0x6C, 0x6F") =
      some [.encByte 0x6C, .encByte 0x6F, .encDrain] ∧
    assembleLine ([0x44, 0x45, 0x43, 0x4F, 0x44, 0x45, 0x20, 0x22, 0x63, 0x72, 0x22]) =
      some [.decChar 0x63, .decChar 0x72, .decDrain, .decFlush false, .decDrain] := by decide +kernel

/-! ### The hypotheses of the statements can be met -/

/-- A state in which all six items hold something, all of it legal. -/
def busy : State := block (-3) 0xE0 (ascii "z$") 7 0xFE [0x00, 0xFF]

theorem witness_legal_states : busy.Legal ∧ State.reset.Legal := by decide

/-- The five offsets of R14, each with the most carry bits set. -/
theorem witness_encoder_offsets : (encBlock 0 0x00 (ascii "0")).Legal ∧ (encBlock (-1) 0x80 []).Legal ∧
    (encBlock (-2) 0xC0 []).Legal ∧ (encBlock (-3) 0xE0 []).Legal ∧ (encBlock (-4) 0xF0 []).Legal := by decide

/-- The eight counts of R17, each with the most leftover bits set. -/
theorem witness_decoder_counts : (decBlock 0 0x00 [0xFF]).Legal ∧ (decBlock 1 0x80 []).Legal ∧
    (decBlock 2 0xC0 []).Legal ∧ (decBlock 3 0xE0 []).Legal ∧ (decBlock 4 0xF0 []).Legal ∧
    (decBlock 5 0xF8 []).Legal ∧ (decBlock 6 0xFC []).Legal ∧ (decBlock 7 0xFE []).Legal := by decide

/-- The invariants are not met by every session. -/
theorem witness_illegal_sessions : ¬ (EncSession.mk 1 0x00 []).Legal ∧ ¬ (EncSession.mk (-5) 0x00 []).Legal ∧
    ¬ (EncSession.mk (-1) 0x40 []).Legal ∧ ¬ (EncSession.mk 0 0x01 []).Legal ∧ ¬ (DecSession.mk 7 0x01 []).Legal ∧
    ¬ (DecSession.mk 0 0x80 []).Legal := by decide

theorem witness_ResetGivesTheSixEmptyValues :
    (busy.setInput [.reset, .command 0x200]).input = .reset :: [.command 0x200] := rfl

theorem witness_EveryStepKeepsTheInvariants : (busy.setInput [.command 0x0A7]).Legal ∧
    step (busy.setInput [.command 0x0A7]) = .next ((block (-1) 0x80 (ascii "z$yk") 7 0xFE [0x00, 0xFF]).respond .ack) :=
  ⟨by decide, eq_next (by decide)⟩

theorem witness_EveryRunStaysLegalAndNeverStops : (State.reset.setInput [.command 0x0FF, .reset, .command 0xFFF]).Legal ∧
    busy.Legal := by decide

/-- A legal word at a state outside the invariants, and one at a legal state. -/
theorem witness_EveryCommandGivesANextState :
    ((encBlock 1 0xFF []).setInput [.command 0x0FF]).input = .command 0x0FF :: [] ∧ decode 0x0FF = .ok (.encByte 0xFF) ∧
    (busy.setInput [.command 0x91F, .reset]).input = .command 0x91F :: [.reset] ∧
    decode 0x91F = .ok (.symRev 0x1F) := ⟨rfl, rfl, rfl, rfl⟩

theorem witness_StepRunsTheDecodedCommand :
    (busy.setInput [.command 0x06C, .reset]).input = .command 0x06C :: [.reset] ∧
    decode 0x06C = .ok (.encByte 0x6C) ∧ (busy.setInput [.reset]).input = .reset :: [] ∧ busy.input = [] :=
  ⟨rfl, rfl, rfl, rfl⟩

/-- A reserved word of each class of R56, the lowest that its clause allows; the word below is legal. -/
theorem witness_ReservedWordAnswersErrAndChangesNothing :
    (busy.setInput [.command 0x300]).input = .command 0x300 :: [] ∧
    [0x300, 0x102, 0x502, 0x201, 0x601, 0x820, 0xFFF].all (fun w => tableRows.all fun r => w &&& r.mask ≠ r.value) = true ∧
    [0x101, 0x501, 0x200, 0x600, 0x81F, 0x9FF].all (fun w => tableRows.any fun r => w &&& r.mask = r.value) = true := by
  decide

theorem witness_TableRowsAreDisjointAndCounted :
    (⟨0x800, 0xFE0⟩ : TableRow) ∈ tableRows ∧ (⟨0x800, 0xFE0⟩ : TableRow).selectedBy 0x81F = true := by decide

/-- The lowest and the highest word of each row. -/
theorem witness_DecodeFollowsTheOpcodeTable :
    ((0x000 : CommandWord) &&& 0xF00 = 0x000 ∧ (0x0FF : CommandWord) &&& 0xF00 = 0x000) ∧
    ((0x100 : CommandWord) &&& 0xFFE = 0x100 ∧ (0x101 : CommandWord) &&& 0xFFE = 0x100) ∧
    ((0x200 : CommandWord) &&& 0xFFF = 0x200) ∧
    ((0x400 : CommandWord) &&& 0xF00 = 0x400 ∧ (0x4FF : CommandWord) &&& 0xF00 = 0x400) ∧
    ((0x500 : CommandWord) &&& 0xFFE = 0x500 ∧ (0x501 : CommandWord) &&& 0xFFE = 0x500) ∧
    ((0x600 : CommandWord) &&& 0xFFF = 0x600) ∧
    ((0x800 : CommandWord) &&& 0xFE0 = 0x800 ∧ (0x81F : CommandWord) &&& 0xFE0 = 0x800) ∧
    ((0x900 : CommandWord) &&& 0xF00 = 0x900 ∧ (0x9FF : CommandWord) &&& 0xF00 = 0x900) ∧
    (∀ r ∈ tableRows, (0xA00 : CommandWord) &&& r.mask ≠ r.value) := by decide

theorem witness_DecodeAndEncodeAgree : decode 0x81F = .ok (.symFwd 31) ∧ decode 0x4FF = .ok (.decChar 0xFF) := ⟨rfl, rfl⟩

/-- For the statements about `ENC.BYTE` and `ENC.FLUSH`: each clause's state and offset; and a five-byte message. -/
theorem witness_EncByteFollowsTheCarryTable :
    ((encBlock 0 0x00 []).Legal ∧ (encBlock 0 0x00 []).enc.off = 0) ∧
    ((encBlock (-1) 0x80 []).Legal ∧ (encBlock (-1) 0x80 []).enc.off = -1) ∧
    ((encBlock (-2) 0xC0 []).Legal ∧ (encBlock (-2) 0xC0 []).enc.off = -2) ∧
    (busy.Legal ∧ busy.enc.off = -3) ∧
    ((encBlock (-4) 0xF0 []).Legal ∧ (encBlock (-4) 0xF0 []).enc.off = -4) ∧
    ([0x66, 0x6F, 0x6F, 0x62, 0x61] : List Byte).length = 5 := by decide

theorem witness_EncByteAppendsOneOrTwoSymbols : (encBlock (-1) 0x80 []).Legal ∧ (encBlock (-2) 0xC0 []).Legal := by decide

theorem witness_EncFlushPadsThenMarksThenClears :
    ((encBlock 0 0x00 []).Legal ∧ (encBlock 0 0x00 []).enc.off = 0) ∧
    ((encBlock (-1) 0x00 []).Legal ∧ (encBlock (-1) 0x00 []).enc.off = -1) ∧
    ((encBlock (-2) 0x00 []).Legal ∧ (encBlock (-2) 0x00 []).enc.off = -2) ∧
    (busy.Legal ∧ busy.enc.off = -3) ∧
    ((encBlock (-4) 0xF0 []).Legal ∧ (encBlock (-4) 0xF0 []).enc.off = -4) := by decide

theorem witness_DrainReturnsAndEmptiesOnlyItsQueue : busy.Legal ∧ busy.enc.out ≠ [] ∧ busy.dec.out ≠ [] := by decide

theorem witness_SequentialLoopRefinesEncByte : busy.Legal ∧ (encBlock (-4) 0xF0 []).Legal := by decide

theorem witness_EncoderOutputIsTheByteStreamInGroups : (block 0 0x00 (ascii "$") 7 0xFE []).Legal ∧
    (block 0 0x00 (ascii "$") 7 0xFE []).enc.off = 0 ∧
    ∀ p, Instr.encFlush p ∉ [.encByte 0x6C, .encDrain, .decChar 0x6E, .decFlush true, .encByte 0x6F] := by decide

/-- One command of each clause: a flush that appends a symbol and the marker behind a pending marker, a drain, a command of
another unit. -/
theorem witness_EncoderEmitsOnlyTheAlphabetAndTheMarker : busy.Legal ∧
    exec (.encFlush true) busy = .next ((block 0 0x00 (ascii "z$w$") 7 0xFE [0x00, 0xFF]).respond .ack) ∧
    exec .encDrain busy = .next ((block (-3) 0xE0 [] 7 0xFE [0x00, 0xFF]).respond (.chars (ascii "z$"))) ∧
    exec (.symFwd 31) busy = .next (busy.respond (.char 0x7A)) :=
  ⟨by decide, eq_next (by decide), eq_next (by decide), eq_next (by decide)⟩

/-- Each clause's state and count, a noise character, a recognised one, and a text of eight. -/
theorem witness_DecCharFollowsTheLeftoverTable : lookup 0x75 = none ∧ lookup 0x6E = some 21 ∧
    ((decBlock 0 0x00 []).Legal ∧ (decBlock 0 0x00 []).dec.cnt = 0) ∧
    ((decBlock 1 0x80 []).Legal ∧ (decBlock 1 0x80 []).dec.cnt = 1) ∧
    ((decBlock 2 0xC0 []).Legal ∧ (decBlock 2 0xC0 []).dec.cnt = 2) ∧
    ((decBlock 3 0xE0 []).Legal ∧ (decBlock 3 0xE0 []).dec.cnt = 3) ∧
    ((decBlock 4 0xF0 []).Legal ∧ (decBlock 4 0xF0 []).dec.cnt = 4) ∧
    ((decBlock 5 0xF8 []).Legal ∧ (decBlock 5 0xF8 []).dec.cnt = 5) ∧
    ((decBlock 6 0xFC []).Legal ∧ (decBlock 6 0xFC []).dec.cnt = 6) ∧
    (busy.Legal ∧ busy.dec.cnt = 7) ∧
    (ascii "csqpyRKl").length = 8 ∧ ∀ ch ∈ ascii "csqpyRKl", (lookup ch).isSome := by decide +kernel

theorem witness_DecFlushDropsTheLeftoverBits : busy.Legal ∧ busy.dec.cnt ≠ 0 := by decide

theorem witness_DecoderOutputIsTheSymbolStreamInBytes : (block (-4) 0xF0 [] 0 0x00 [0xFF]).Legal ∧
    (block (-4) 0xF0 [] 0 0x00 [0xFF]).dec.cnt = 0 ∧
    ∀ p, Instr.decFlush p ∉ [.decChar 0x6E, .decChar 0x24, .decDrain, .encFlush true, .decChar 0x4F] := by decide

theorem witness_SymFwdReadsTheCanonicalAlphabet : busy.Legal ∧ memReadFwd 31 = memReadFwd 31 := by decide

/-- The ends of the ranges of the statement's chain, one character in each clause and one in none. -/
theorem witness_SymRevFollowsTheReverseTable : busy.Legal ∧
    [0x30, 0x39, 0x61, 0x68, 0x41, 0x48, 0x69, 0x49, 0x6A, 0x4A, 0x6B, 0x4B, 0x6C, 0x4C, 0x6D, 0x4D, 0x6E, 0x4E, 0x6F,
      0x4F, 0x70, 0x74, 0x50, 0x54, 0x76, 0x7A, 0x56, 0x5A].map lookup =
    [some 0, some 9, some 10, some 17, some 10, some 17, some 1, some 1, some 18, some 18, some 19, some 19, some 1,
      some 1, some 20, some 20, some 21, some 21, some 0, some 0, some 22, some 26, some 22, some 26, some 27, some 31,
      some 27, some 31] ∧ lookup 0x75 = none := by decide

theorem witness_ReverseTableInvertsTheForwardTable : busy.Legal ∧
    (10 ≤ (10 : SymVal).toNat ∧ memReadFwd 10 - 0x20 = 0x41) ∧ (10 ≤ (31 : SymVal).toNat ∧ memReadFwd 31 - 0x20 = 0x5A) ∧
    (0x4C, 1) ∈ ([(0x6F, 0), (0x4F, 0), (0x69, 1), (0x49, 1), (0x6C, 1), (0x4C, 1)] : List (CharCode × SymVal)) := by
  decide

/-- A command of each kind answers a next state from a legal state. -/
theorem witness_EachCommandWritesOnlyItsOwnItems : busy.Legal ∧
    [Instr.encByte 0xFF, .encFlush true, .encDrain, .decChar 0x6E, .decFlush true, .decDrain, .symFwd 31,
      .symRev 0x24].all (fun i => (nextState (exec i busy)).isSome) = true := by decide

/-- Two states with the same session of one unit and another session of the other; a command of each unit. -/
theorem witness_CommandsOfDifferentUnitsCommute : busy.Legal ∧ (block (-3) 0xE0 (ascii "z$") 0 0x00 []).Legal ∧
    (block 0 0x00 [] 7 0xFE [0x00, 0xFF]).Legal ∧ busy.enc = (block (-3) 0xE0 (ascii "z$") 0 0x00 []).enc ∧
    busy.dec = (block 0 0x00 [] 7 0xFE [0x00, 0xFF]).dec ∧
    (Instr.encByte 0xFF).blockUnit = .enc ∧ (Instr.decChar 0x6E).blockUnit = .dec ∧ (Instr.symFwd 31).blockUnit = .sym ∧
    exec (.symFwd 31) busy = .next (busy.respond (.char 0x7A)) ∧
    exec .encDrain busy = .next ((block (-3) 0xE0 [] 7 0xFE [0x00, 0xFF]).respond (.chars (ascii "z$"))) ∧
    exec .decDrain busy = .next ((block (-3) 0xE0 (ascii "z$") 7 0xFE []).respond (.bytes [0x00, 0xFF])) :=
  ⟨by decide, by decide, by decide, rfl, rfl, rfl, rfl, rfl, eq_next (by decide), eq_next (by decide),
    eq_next (by decide)⟩

/-- Two states with the same queues and other registers. -/
theorem witness_ResponsesDoNotShowTheCarriedBits : busy.Legal ∧ (block (-4) 0x10 (ascii "z$") 1 0x80 [0x00, 0xFF]).Legal ∧
    busy.enc.out = (block (-4) 0x10 (ascii "z$") 1 0x80 [0x00, 0xFF]).enc.out ∧
    busy.dec.out = (block (-4) 0x10 (ascii "z$") 1 0x80 [0x00, 0xFF]).dec.out ∧
    busy.enc ≠ (block (-4) 0x10 (ascii "z$") 1 0x80 [0x00, 0xFF]).enc ∧
    (nextState (exec .encDrain busy)).isSome ∧
    (nextState (exec .encDrain (block (-4) 0x10 (ascii "z$") 1 0x80 [0x00, 0xFF]))).isSome := by decide

theorem witness_SessionsAreIndependentAndReusable : busy.Legal := by decide

theorem witness_PresentedCommandsRunInOrder :
    (busy.setInput [.command 0x06C, .command 0x200, .reset]).input = commandEvents [.encByte 0x6C, .encDrain] ++ [.reset] := by
  decide

theorem witness_FinishReturnsTheSessionToReset : busy.Legal := by decide

/-- One session after reset, the other busy: for the one-shot, chunk and length statements. -/
theorem witness_OneShotResultsDoNotDependOnTheFirstDrain :
    ((block 0 0x00 [] 7 0xFE [0xFF]).enc = EncSession.reset ∧ (block 0 0x00 [] 7 0xFE [0xFF]).dec.Legal) ∧
    ((block (-3) 0xE0 (ascii "z") 0 0x00 []).dec = DecSession.reset ∧
      (block (-3) 0xE0 (ascii "z") 0 0x00 []).enc.Legal) := by decide

theorem witness_EncodeThenDecodeGivesTheBytes :
    (State.reset.respond .err).enc = EncSession.reset ∧ (State.reset.respond .err).dec = DecSession.reset := ⟨rfl, rfl⟩

/-- V136. -/
theorem witness_AlignedMessagesNeedNoPadding : State.reset.enc = EncSession.reset ∧ State.reset.dec = DecSession.reset ∧
    ([0x66, 0x6F, 0x6F, 0x62, 0x61] : List Byte).length = 5 * 1 ∧ ([] : List Byte).length = 5 * 0 := ⟨rfl, rfl, rfl, rfl⟩

/-- V144 and its fellows: each text of the list and the sessions it is decoded from. -/
theorem witness_EncoderOutputIsTheNormalForm : State.reset.enc = EncSession.reset ∧ State.reset.dec = DecSession.reset ∧
    (block 0 0x00 [] 7 0xFE [0xFF]).dec.Legal ∧
    (ascii "cs", ascii "cr") ∈ [(ascii "CR", ascii "cr"), (ascii "co", ascii "c0"), (ascii "c-r", ascii "cr"),
      (ascii "cs", ascii "cr"), (ascii "c", ascii "")] := by decide +kernel

theorem witness_MarkerDoesNotDisturbDecoding :
    State.reset.enc = EncSession.reset ∧ State.reset.dec = DecSession.reset := ⟨rfl, rfl⟩

theorem witness_EncoderChunkBoundariesAreInvisible :
    (block 0 0x00 [] 7 0xFE [0xFF]).enc = EncSession.reset ∧ (block 0 0x00 [] 7 0xFE [0xFF]).dec.Legal := by decide

theorem witness_DecoderChunkBoundariesAreInvisible :
    (block (-3) 0xE0 (ascii "z") 0 0x00 []).dec = DecSession.reset ∧
    (block (-3) 0xE0 (ascii "z") 0 0x00 []).enc.Legal := by decide

/-- V140: both premises on texts that differ. -/
theorem witness_DecodingIgnoresCase : busy.Legal ∧ ascii "DHQQESBJ" = (ascii "dhqqesbj").map upperCased ∧
    (ascii "DhqQesbJ").map upperCased = (ascii "dHqqESbj").map upperCased := by decide +kernel

/-- Each replacement of the statement. -/
theorem witness_DecodingAcceptsAliases : busy.Legal ∧
    List.Forall₂ (fun c d : CharCode => d = c ∨ (c = 0x30 ∧ (d = 0x6F ∨ d = 0x4F)) ∨
      (c = 0x31 ∧ (d = 0x69 ∨ d = 0x49 ∨ d = 0x6C ∨ d = 0x4C)))
      [0x61, 0x30, 0x30, 0x31, 0x31, 0x31, 0x31] [0x61, 0x6F, 0x4F, 0x69, 0x49, 0x6C, 0x4C] := by
  refine ⟨by decide, ?_⟩
  simp [List.forall₂_cons]

theorem witness_DecodingSkipsNoise : busy.Legal ∧
    (ascii "cs-qp$").filter (fun ch => (lookup ch).isSome) = ascii "csqp" := by decide +kernel

theorem witness_MessageLengths :
    ((block 0 0x00 [] 7 0xFE [0xFF]).enc = EncSession.reset ∧ (block 0 0x00 [] 7 0xFE [0xFF]).dec.Legal) ∧
    ((block (-3) 0xE0 (ascii "z") 0 0x00 []).dec = DecSession.reset ∧
      (block (-3) 0xE0 (ascii "z") 0 0x00 []).enc.Legal) := by decide

end Sys2Proof.Tests
end

/-!
The command port: what a step does with each kind of event, that the decoder inverts the encoder, and that a presented list of
commands runs one step each (`00_scope.md` R7, `10_state.md` R12, `20_memory.md` R38, `70_reset_and_hazards.md` R196).
-/

namespace Sys2Proof.Machine

/-! ### The input field beside a command -/

@[simp] theorem State.setInput_setInput (s : State) (evs evs' : List HostEvent) :
    (s.setInput evs).setInput evs' = s.setInput evs' := rfl

@[simp] theorem State.setInput_self (s : State) : s.setInput s.input = s := rfl

theorem exec_keeps_input {i : Instr} {s t : State} (h : exec i s = .next t) : t.input = s.input := by
  rw [exec_next_iff.mp h]

/-- The events to come do not matter to a command: with others in their place it does the same and leaves those. -/
theorem exec_setInput {i : Instr} {s t : State} (h : exec i s = .next t) (evs : List HostEvent) :
    exec i (s.setInput evs) = .next (t.setInput evs) := by
  rw [exec_next_iff.mp h, exec_eq]
  rfl

/-! ### One step per kind of event -/

theorem step_of_input_nil {s : State} (h : s.input = []) : step s = .next s := by
  simp [step, h, atRest]

theorem step_of_input_reset {s : State} {rest : List HostEvent} (h : s.input = .reset :: rest) :
    step s = .next (resetEvent (s.setInput rest)) := by
  simp [step, h, takeEvent]

theorem step_of_input_command {s : State} {w : CommandWord} {rest : List HostEvent} {i : Instr}
    (h : s.input = .command w :: rest) (hw : decode w = .ok i) : step s = exec i (s.setInput rest) := by
  simp [step, h, takeEvent, presentWord, hw]

/-- Settles O7: one clause per kind of event, each the step's equation for it. -/
theorem stepRunsTheDecodedCommand : Obligations.StepRunsTheDecodedCommand := by
  unfold Obligations.StepRunsTheDecodedCommand
  refine ⟨fun s w rest i hin hw => step_of_input_command hin hw, fun s rest hin => ?_, fun s hin => step_of_input_nil hin⟩
  exact ⟨resetEvent (s.setInput rest), step_of_input_reset hin, by simp, by simp⟩

/-! ### The decoder inverts the encoder -/

/-- The fields of a word whose operand is all of `arg` (`30_encoding.md` R50). -/
theorem fieldsOfWord_append (hi : BitVec 4) (arg : BitVec 8) :
    Fields.ofWord (hi ++ arg) = ⟨hi.extractLsb' 2 2, hi.extractLsb' 0 2, arg⟩ := by
  simp only [Fields.ofWord, Fields.mk.injEq]
  refine ⟨?_, ?_, ?_⟩ <;>
  · apply BitVec.eq_of_getLsbD_eq
    intro p hp
    simp only [BitVec.getLsbD_extractLsb', BitVec.getLsbD_append]
    interval_cases p <;> simp

/-- A command's word decodes to the command. A command with an operand of eight bits is read off the fields; of the others there
are few enough words to look at each. -/
theorem decode_encode (i : Instr) : decode (encode i) = .ok i := by
  cases i with
  | encByte b | decChar ch | symRev ch => rw [encode, decode, fieldsOfWord_append]; rfl
  | encFlush m | decFlush m => revert m; decide
  | encDrain | decDrain => decide
  | symFwd v => revert v; decide

/-! ### Lists of presented commands -/

@[simp] theorem commandEvents_nil : commandEvents [] = [] := rfl

@[simp] theorem commandEvents_cons (i : Instr) (cmds : List Instr) :
    commandEvents (i :: cmds) = .command (encode i) :: commandEvents cmds := rfl

theorem run_succ_of_step_next {s t : State} (h : step s = .next t) (k : Nat) :
    Host.Core.run Sys2Proof.core (k + 1) s = Host.Core.run Sys2Proof.core k t := by
  have hcore : Sys2Proof.core.step s = .next t := h
  simp only [Host.Core.run, hcore]

theorem runCommands_cons_of_exec_next {i : Instr} {s t : State} (h : exec i s = .next t) (cmds : List Instr) :
    runCommands (i :: cmds) s = runCommands cmds t := by
  simp only [runCommands, h]

/-- Settles O30, by induction on the commands: the first word's step is its command, which leaves the other words presented and
does not see them. -/
theorem presentedCommandsRunInOrder : Obligations.PresentedCommandsRunInOrder := by
  unfold Obligations.PresentedCommandsRunInOrder
  intro cmds rest s hin
  induction cmds generalizing s with
  | nil =>
    obtain rfl : s.input = rest := hin
    rfl
  | cons i cmds ih =>
    obtain ⟨t, ht⟩ : ∃ t, exec i (s.setInput (commandEvents cmds ++ rest)) = .next t := ⟨_, exec_eq i _⟩
    have hstep : step s = .next t := (step_of_input_command hin (decode_encode i)).trans ht
    have hleft : t.input = commandEvents cmds ++ rest := exec_keeps_input ht
    have hexec : exec i (s.setInput rest) = .next (t.setInput rest) := exec_setInput ht rest
    rw [List.length_cons, run_succ_of_step_next hstep, runCommands_cons_of_exec_next hexec]
    exact ih t hleft

end Sys2Proof.Machine

/-!
The units of the block (`00_scope.md` R9): a command leaves the sessions of the other units, its answer does not depend on them,
and two commands of different units commute.
-/

namespace Sys2Proof.Machine

/-! ### A command and the other units' sessions -/

theorem encEffect_of_other_unit {i : Instr} (h : i.blockUnit ≠ .enc) (e : EncSession) : encEffect i e = e := by
  cases i with
  | encByte | encFlush | encDrain => exact absurd rfl h
  | decChar | decFlush | decDrain | symFwd | symRev => rfl

theorem decEffect_of_other_unit {i : Instr} (h : i.blockUnit ≠ .dec) (d : DecSession) : decEffect i d = d := by
  cases i with
  | decChar | decFlush | decDrain => exact absurd rfl h
  | encByte | encFlush | encDrain | symFwd | symRev => rfl

/-- Only an ENC command's answer reads ENC.OUT, and only a DEC command's reads DEC.OUT. -/
theorem answerOf_congr {i : Instr} {cs cs' : List CharCode} {bs bs' : List Byte}
    (henc : i.blockUnit = .enc → cs = cs') (hdec : i.blockUnit = .dec → bs = bs') :
    answerOf i cs bs = answerOf i cs' bs' := by
  cases i with
  | encDrain => exact congrArg Response.chars (henc rfl)
  | decDrain => exact congrArg Response.bytes (hdec rfl)
  | encByte | encFlush | decChar | decFlush | symFwd | symRev => rfl

/-- A command of one unit does not change the answer of a command of another. -/
theorem answerOf_after_other_unit {i j : Instr} (h : i.blockUnit ≠ j.blockUnit) (e : EncSession) (d : DecSession) :
    answerOf j (encEffect i e).out (decEffect i d).out = answerOf j e.out d.out := by
  refine answerOf_congr (fun hj => ?_) (fun hj => ?_)
  · rw [encEffect_of_other_unit (hj ▸ h)]
  · rw [decEffect_of_other_unit (hj ▸ h)]

/-! ### One command -/

theorem enc_of_exec_next {i : Instr} {s t : State} (h : exec i s = .next t) : t.enc = encEffect i s.enc := by
  rw [exec_next_iff.mp h]

theorem dec_of_exec_next {i : Instr} {s t : State} (h : exec i s = .next t) : t.dec = decEffect i s.dec := by
  rw [exec_next_iff.mp h]

theorem newResponses_of_exec_next {i : Instr} {s t : State} (h : exec i s = .next t) :
    newResponses s t = [answerOf i s.enc.out s.dec.out] := by
  simp [newResponses, exec_next_iff.mp h]

/-- What a command answers depends on its own unit's session alone. -/
theorem newResponses_eq_of_own_session {i : Instr} {s s' t t' : State} (ht : exec i s = .next t)
    (ht' : exec i s' = .next t') (henc : i.blockUnit = .enc → s.enc = s'.enc)
    (hdec : i.blockUnit = .dec → s.dec = s'.dec) : newResponses s t = newResponses s' t' := by
  rw [newResponses_of_exec_next ht, newResponses_of_exec_next ht',
    answerOf_congr (fun h => congrArg EncSession.out (henc h)) (fun h => congrArg DecSession.out (hdec h))]

/-! ### Two commands of different units -/

section
variable {i j : Instr} (h : i.blockUnit ≠ j.blockUnit)
include h

theorem encRun_pair_comm (e : EncSession) : encRun [i, j] e = encRun [j, i] e := by
  show encEffect j (encEffect i e) = encEffect i (encEffect j e)
  by_cases hi : i.blockUnit = .enc
  · have hj : j.blockUnit ≠ .enc := hi ▸ h.symm
    simp only [encEffect_of_other_unit hj]
  · simp only [encEffect_of_other_unit hi]

theorem decRun_pair_comm (d : DecSession) : decRun [i, j] d = decRun [j, i] d := by
  show decEffect j (decEffect i d) = decEffect i (decEffect j d)
  by_cases hi : i.blockUnit = .dec
  · have hj : j.blockUnit ≠ .dec := hi ▸ h.symm
    simp only [decEffect_of_other_unit hj]
  · simp only [decEffect_of_other_unit hi]

/-- Each of the two answers as it does alone. -/
theorem answersOf_pair (e : EncSession) (d : DecSession) :
    answersOf [i, j] e d = [answerOf i e.out d.out, answerOf j e.out d.out] := by
  rw [answersOf, answersOf, answersOf, answerOf_after_other_unit h]

end

/-- Settles O27: the first part from the effect of one command on each session, the second from the effects of two commands of
different units commuting and each one's answer not depending on the other. -/
theorem commandsOfDifferentUnitsCommute : Obligations.CommandsOfDifferentUnitsCommute := by
  unfold Obligations.CommandsOfDifferentUnitsCommute
  constructor
  · intro i s s' t t' _ _ ht ht'
    refine ⟨fun hu hs => ⟨?_, ?_, ?_⟩, fun hu hs => ⟨?_, ?_, ?_⟩, fun hu => ⟨?_, ?_, ?_⟩⟩
    · rw [enc_of_exec_next ht, enc_of_exec_next ht', hs]
    · rw [dec_of_exec_next ht, decEffect_of_other_unit (by simp [hu])]
    · exact newResponses_eq_of_own_session ht ht' (fun _ => hs) (by simp [hu])
    · rw [dec_of_exec_next ht, dec_of_exec_next ht', hs]
    · rw [enc_of_exec_next ht, encEffect_of_other_unit (by simp [hu])]
    · exact newResponses_eq_of_own_session ht ht' (by simp [hu]) (fun _ => hs)
    · rw [enc_of_exec_next ht, encEffect_of_other_unit (by simp [hu])]
    · rw [dec_of_exec_next ht, decEffect_of_other_unit (by simp [hu])]
    · exact newResponses_eq_of_own_session ht ht' (by simp [hu]) (by simp [hu])
  · intro i j s _ h
    refine ⟨_, _, answerOf i s.enc.out s.dec.out, answerOf j s.enc.out s.dec.out, runCommands_eq [i, j] s,
      runCommands_eq [j, i] s, encRun_pair_comm h s.enc, decRun_pair_comm h s.dec, ?_, ?_⟩
    · rw [answersOf_pair h]
    · rw [answersOf_pair h.symm]

end Sys2Proof.Machine

/-!
The two invariants (`10_state.md` R14, R18): their bit form, that reset meets them, that every command and every step keeps them,
and that a run from a legal state never stops.
-/

namespace Sys2Proof.Machine

/-! ### The bit form of the invariants -/

/-- R14's and R18's mask test is a test of the bits below the top `r`; `topField_and_mask` is the other direction. -/
theorem getLsbD_eq_false_of_and_mask {x : BitVec 8} {r i : Nat} (h : x.toNat &&& (0xFF >>> r) = 0) (hi : i < 8 - r) :
    x.getLsbD i = false := by
  have hm : (0xFF : Nat) = 2 ^ 8 - 1 := rfl
  have hbit : (x.toNat &&& (0xFF >>> r)).testBit i = false := by rw [h, Nat.zero_testBit]
  rw [Nat.testBit_and, BitVec.testBit_toNat, Nat.testBit_shiftRight, hm, Nat.testBit_two_pow_sub_one,
    decide_eq_true (show r + i < 8 by omega), Bool.and_true] at hbit
  exact hbit

theorem and_mask_eq_zero_iff (x : BitVec 8) {r : Nat} (hr : r ≤ 8) :
    x.toNat &&& (0xFF >>> r) = 0 ↔ ∀ i, i < 8 - r → x.getLsbD i = false :=
  ⟨fun h _ hi => getLsbD_eq_false_of_and_mask h hi, topField_and_mask x r hr⟩

/-- The five values of ENC.OFF that R14 allows, among the sixteen of the field. -/
theorem offset_in_range_iff (o : BitVec 4) :
    (-4 ≤ o.toInt ∧ o.toInt ≤ 0) ↔ (o = 0 ∨ o = -1 ∨ o = -2 ∨ o = -3 ∨ o = -4) := by
  revert o; decide

theorem carryCount_le (o : BitVec 4) : carryCount o ≤ 8 := by
  revert o; decide

/-- Settles O3: for each session the mask test against the bits below the top ones, and for the encoder the range of ENC.OFF
against its five values. -/
theorem invariantIntegerFormIsTheBitLayout : Obligations.InvariantIntegerFormIsTheBitLayout := by
  unfold Obligations.InvariantIntegerFormIsTheBitLayout
  constructor
  · intro e
    exact and_congr (offset_in_range_iff e.off) (and_mask_eq_zero_iff e.acc (carryCount_le e.off))
  · intro d
    exact and_mask_eq_zero_iff d.acc (by omega)

/-! ### Reset -/

theorem EncSession.reset_legal : EncSession.reset.Legal := by decide

theorem DecSession.reset_legal : DecSession.reset.Legal := by decide

/-- Settles O2. -/
theorem resetStateIsLegal : Obligations.ResetStateIsLegal :=
  ⟨EncSession.reset_legal, DecSession.reset_legal⟩

/-- Settles O1: a RESET event is `resetEvent`, which writes the two reset sessions. -/
theorem resetGivesTheSixEmptyValues : Obligations.ResetGivesTheSixEmptyValues := by
  unfold Obligations.ResetGivesTheSixEmptyValues
  refine ⟨⟨rfl, rfl, rfl, rfl, rfl, rfl⟩, fun s rest hin => ?_⟩
  exact ⟨resetEvent (s.setInput rest), step_of_input_reset hin, rfl, rfl, rfl, rfl, rfl, rfl⟩

/-! ### A command keeps the invariants -/

/-- The invariants read the registers alone, so emptying a queue keeps them. -/
theorem EncSession.Legal.emptied {e : EncSession} (h : e.Legal) : e.emptied.Legal := h

theorem DecSession.Legal.emptied {d : DecSession} (h : d.Legal) : d.emptied.Legal := h

theorem EncSession.Legal.afterByte {e : EncSession} (h : e.Legal) (b : Byte) : (encAfterByte b e).Legal := by
  rw [encAfterByte_of_legal h]
  exact (encPack_stream h b).1

theorem EncSession.Legal.afterFlush {e : EncSession} (h : e.Legal) (m : Bool) : (encAfterFlush m e).Legal := by
  rw [encAfterFlush_of_legal h]
  exact EncSession.reset_legal

theorem DecSession.Legal.afterChar {d : DecSession} (h : d.Legal) (ch : CharCode) : (decAfterChar ch d).Legal := by
  rw [decAfterChar_eq]
  cases lookup ch with
  | none => exact h
  | some v =>
    show (decAfterValue v d).Legal
    rw [decAfterValue_of_legal h]
    exact (decUnpack_stream d v).1

theorem decAfterFlush_legal (d : DecSession) : (decAfterFlush d).Legal := DecSession.reset_legal

theorem EncSession.Legal.effect {e : EncSession} (h : e.Legal) (i : Instr) : (encEffect i e).Legal := by
  cases i with
  | encByte b => exact h.afterByte b
  | encFlush m => exact h.afterFlush m
  | encDrain => exact h.emptied
  | decChar | decFlush | decDrain | symFwd | symRev => exact h

theorem DecSession.Legal.effect {d : DecSession} (h : d.Legal) (i : Instr) : (decEffect i d).Legal := by
  cases i with
  | decChar ch => exact h.afterChar ch
  | decFlush _ => exact decAfterFlush_legal d
  | decDrain => exact h.emptied
  | encByte | encFlush | encDrain | symFwd | symRev => exact h

theorem exec_keeps_legal {i : Instr} {s t : State} (hs : s.Legal) (h : exec i s = .next t) : t.Legal := by
  obtain ⟨henc, hdec⟩ := hs
  rw [exec_next_iff.mp h]
  exact ⟨henc.effect i, hdec.effect i⟩

/-! ### A step keeps the invariants, and answers next -/

theorem resetEvent_legal (s : State) : (resetEvent s).Legal := ⟨EncSession.reset_legal, DecSession.reset_legal⟩

theorem step_answers_next (s : State) : ∃ t, step s = .next t := by
  obtain ⟨-, h⟩ | ⟨rest, -, h⟩ | ⟨_, rest, i, -, -, h⟩ | ⟨_, rest, _, -, -, h⟩ := step_cases s
  · exact ⟨_, h⟩
  · exact ⟨_, h⟩
  · exact ⟨_, h.trans (exec_eq i (s.setInput rest))⟩
  · exact ⟨_, h⟩

/-- The step lemma of the invariants, one case per kind of event. Taking an event off the input and recording a response write
neither session. -/
theorem step_keeps_legal {s t : State} (hs : s.Legal) (h : step s = .next t) : t.Legal := by
  obtain ⟨-, hstep⟩ | ⟨rest, -, hstep⟩ | ⟨_, rest, i, -, -, hstep⟩ | ⟨_, rest, _, -, -, hstep⟩ := step_cases s
  · obtain rfl : s = t := Host.Outcome.next.inj (hstep.symm.trans h)
    exact hs
  · obtain rfl : resetEvent (s.setInput rest) = t := Host.Outcome.next.inj (hstep.symm.trans h)
    exact resetEvent_legal _
  · have hrest : (s.setInput rest).Legal := hs
    exact exec_keeps_legal hrest (hstep.symm.trans h)
  · obtain rfl : answerErr (s.setInput rest) = t := Host.Outcome.next.inj (hstep.symm.trans h)
    exact hs

/-- Settles O4, by the step lemma. -/
theorem everyStepKeepsTheInvariants : Obligations.EveryStepKeepsTheInvariants := by
  unfold Obligations.EveryStepKeepsTheInvariants
  exact fun _ _ hs h => step_keeps_legal hs h

/-! ### Runs -/

/-- The invariant's induction, over the number of steps: the first step answers a legal state, from which the rest runs. -/
theorem State.Legal.safeFrom {s : State} (hs : s.Legal) : s.SafeFrom := by
  intro n
  induction n generalizing s with
  | zero => exact ⟨s, rfl, hs⟩
  | succ n ih =>
    obtain ⟨u, hu⟩ := step_answers_next s
    rw [run_succ_of_step_next hu]
    exact ih (step_keeps_legal hs hu)

/-- Settles O5: the reset state is legal whatever is presented, so both parts are the safety of legal states. -/
theorem everyRunStaysLegalAndNeverStops : Obligations.EveryRunStaysLegalAndNeverStops := by
  unfold Obligations.EveryRunStaysLegalAndNeverStops
  refine ⟨fun evs => ?_, fun _ hs => hs.safeFrom⟩
  have hreset : (State.reset.setInput evs).Legal := ⟨EncSession.reset_legal, DecSession.reset_legal⟩
  exact hreset.safeFrom

end Sys2Proof.Machine

/-!
What a command leaves alone and what its response hides (`10_state.md` R24, `20_memory.md` R38): the queues are appended to, and
the response is read off the queues alone.
-/

namespace Sys2Proof.Machine

/-! ### The queue that a command appends to -/

theorem encAfterByte_out_prefix {e : EncSession} (h : e.Legal) (b : Byte) : e.out <+: (encAfterByte b e).out := by
  obtain ⟨-, -, hout⟩ := encPack_stream h b
  rw [encAfterByte_of_legal h, hout]
  exact List.prefix_append _ _

theorem encAfterFlush_out_prefix {e : EncSession} (h : e.Legal) (m : Bool) : e.out <+: (encAfterFlush m e).out := by
  rw [encAfterFlush_of_legal h]
  exact List.prefix_append _ _

theorem decAfterChar_out_prefix {d : DecSession} (h : d.Legal) (ch : CharCode) : d.out <+: (decAfterChar ch d).out := by
  rw [decAfterChar_eq]
  cases lookup ch with
  | none => exact List.prefix_refl _
  | some v =>
    show d.out <+: (decAfterValue v d).out
    obtain ⟨-, -, hout⟩ := decUnpack_stream d v
    rw [decAfterValue_of_legal h, hout]
    exact List.prefix_append _ _

@[simp] theorem decAfterFlush_out (d : DecSession) : (decAfterFlush d).out = d.out := rfl

theorem responses_of_exec_next {i : Instr} {s t : State} (h : exec i s = .next t) :
    t.responses = s.responses ++ [answerOf i s.enc.out s.dec.out] := by
  rw [exec_next_iff.mp h]

/-- Settles O26: each command's effect on the two sessions, in the words of R24's row of it. -/
theorem eachCommandWritesOnlyItsOwnItems : Obligations.EachCommandWritesOnlyItsOwnItems := by
  unfold Obligations.EachCommandWritesOnlyItsOwnItems
  intro i s t hs h
  obtain ⟨hencLegal, hdecLegal⟩ := hs
  have henc : t.enc = encEffect i s.enc := enc_of_exec_next h
  have hdec : t.dec = decEffect i s.dec := dec_of_exec_next h
  refine ⟨exec_keeps_input h, ⟨_, responses_of_exec_next h⟩, ?_⟩
  cases i with
  | encByte b => exact ⟨hdec, henc ▸ encAfterByte_out_prefix hencLegal b⟩
  | encFlush m => exact ⟨hdec, henc ▸ encAfterFlush_out_prefix hencLegal m⟩
  | encDrain =>
    exact ⟨hdec, (congrArg EncSession.off henc).trans (EncSession.emptied_off _),
      (congrArg EncSession.acc henc).trans (EncSession.emptied_acc _)⟩
  | decChar ch => exact ⟨henc, hdec ▸ decAfterChar_out_prefix hdecLegal ch⟩
  | decFlush _ => exact ⟨henc, (congrArg DecSession.out hdec).trans (decAfterFlush_out _)⟩
  | decDrain =>
    exact ⟨henc, (congrArg DecSession.cnt hdec).trans (DecSession.emptied_cnt _),
      (congrArg DecSession.acc hdec).trans (DecSession.emptied_acc _)⟩
  | symFwd _ | symRev _ => exact ⟨henc, hdec⟩

/-- Settles O28: a command's response is `answerOf` it and the two queues, which are the same in both states. -/
theorem responsesDoNotShowTheCarriedBits : Obligations.ResponsesDoNotShowTheCarriedBits := by
  unfold Obligations.ResponsesDoNotShowTheCarriedBits
  intro i s s' t t' _ _ hencOut hdecOut ht ht'
  rw [newResponses_of_exec_next ht, newResponses_of_exec_next ht', hencOut, hdecOut]

end Sys2Proof.Machine

/-!
The encoding of the commands (`30_encoding.md` R50 to R56). A command's word is read as a number: its row's match value plus its
operand. From that the decoder's inverse, the rows of R52 as ranges of words, and the four classes of the words that select none.
-/

namespace Sys2Proof

/-- The width of a command's operand field (R53). -/
def Instr.operandBits : Instr → Nat
  | .encByte _ | .decChar _ | .symRev _ => 8
  | .encFlush _ | .decFlush _ => 1
  | .encDrain | .decDrain => 0
  | .symFwd _ => 5

/-- A command's operand as a number, 0 where there is none (`30_encoding.md` R53). -/
def Instr.operandValue : Instr → Nat
  | .encByte b => b.toNat
  | .decChar ch | .symRev ch => ch.toNat
  | .encFlush m | .decFlush m => m.toNat
  | .encDrain | .decDrain => 0
  | .symFwd v => v.toNat

/-- A class of R56 as a set of word numbers: by the first hexadecimal digit, `unit ++ op`, and the operand field. -/
def Reserved.covers (c : Reserved) (n : Nat) : Bool :=
  match c with
  | .unusedOp => n / 256 ∈ [0x3, 0x7, 0xA, 0xB, 0xC, 0xD, 0xE, 0xF]
  | .flushArg => (n / 256 = 0x1 ∨ n / 256 = 0x5) ∧ 0x02 ≤ n % 256
  | .drainArg => (n / 256 = 0x2 ∨ n / 256 = 0x6) ∧ n % 256 ≠ 0x00
  | .fwdArg => n / 256 = 0x8 ∧ 0x20 ≤ n % 256

/-- A word number of one of the classes of R56. -/
def inReservedClass (n : Nat) : Bool :=
  Reserved.unusedOp.covers n || (Reserved.flushArg.covers n || (Reserved.drainArg.covers n || Reserved.fwdArg.covers n))

end Sys2Proof

namespace Sys2Proof.Machine

/-! ### Words as numbers -/

theorem toNat_append_eq_add {m n : Nat} (x : BitVec m) (y : BitVec n) : (x ++ y).toNat = 2 ^ n * x.toNat + y.toNat := by
  rw [BitVec.toNat_append, ← Nat.shiftLeft_add_eq_or_of_lt y.isLt, Nat.shiftLeft_eq, Nat.mul_comm]

theorem toNat_getLsbD_zero {n : Nat} (x : BitVec n) : (x.getLsbD 0).toNat = x.toNat % 2 ^ 1 := by
  rw [BitVec.getLsbD, Nat.toNat_testBit, pow_zero, Nat.div_one, pow_one]

theorem extractLsb'_zero_toNat {n : Nat} (w : BitVec n) (k : Nat) : (w.extractLsb' 0 k).toNat = w.toNat % 2 ^ k := by
  rw [BitVec.extractLsb'_toNat, Nat.shiftRight_zero]

/-- A command's word is its row's match value with the operand in the free bits. -/
theorem encode_toNat (i : Instr) : (encode i).toNat = i.tableRow.value.toNat + i.operandValue := by
  cases i with
  | encByte | decChar | symRev | symFwd => exact toNat_append_eq_add _ _
  | encFlush m | decFlush m => revert m; decide
  | encDrain | decDrain => rfl

/-- A word's number, from its three fields (R50). -/
theorem fieldsOfWord_toNat (w : CommandWord) :
    w.toNat = 1024 * (Fields.ofWord w).unit.toNat + 256 * (Fields.ofWord w).op.toNat + (Fields.ofWord w).arg.toNat := by
  simp only [Fields.ofWord, BitVec.extractLsb'_toNat, Nat.shiftRight_eq_div_pow]
  omega

/-! ### The encoder inverts the decoder -/

theorem decodeFlush_eq_ok {mk : Bool → Instr} {arg : BitVec 8} {i : Instr} (h : decodeFlush mk arg = .ok i) :
    ∃ m : Bool, mk m = i ∧ arg.toNat = m.toNat := by
  unfold decodeFlush at h
  split at h
  next hlt => exact ⟨arg.getLsbD 0, Except.ok.inj h, ((toNat_getLsbD_zero arg).trans (Nat.mod_eq_of_lt hlt)).symm⟩
  next => cases h

theorem decodeDrain_eq_ok {j i : Instr} {arg : BitVec 8} (h : decodeDrain j arg = .ok i) : j = i ∧ arg.toNat = 0 := by
  unfold decodeDrain at h
  split at h
  next h0 => exact ⟨Except.ok.inj h, h0⟩
  next => cases h

theorem decodeFwd_eq_ok {arg : BitVec 8} {i : Instr} (h : decodeFwd arg = .ok i) :
    ∃ v : SymVal, .symFwd v = i ∧ arg.toNat = v.toNat := by
  unfold decodeFwd at h
  split at h
  next hlt =>
    exact ⟨arg.extractLsb' 0 5, Except.ok.inj h, ((extractLsb'_zero_toNat arg 5).trans (Nat.mod_eq_of_lt hlt)).symm⟩
  next => cases h

/-- Fields that spell a command are the fields of its word, as a number. -/
theorem decodeFields_eq_ok {f : Fields} {i : Instr} (h : decodeFields f = .ok i) :
    1024 * f.unit.toNat + 256 * f.op.toNat + f.arg.toNat = i.tableRow.value.toNat + i.operandValue := by
  unfold decodeFields at h
  generalize f.unit.toNat = unit, f.op.toNat = op at h ⊢
  split at h
  case h_9 => cases h
  case h_1 | h_4 | h_8 =>
    obtain rfl := Except.ok.inj h
    exact Nat.add_left_cancel_iff.mpr rfl
  case h_2 | h_5 =>
    obtain ⟨m, rfl, harg⟩ := decodeFlush_eq_ok h
    exact congrArg (_ + ·) harg
  case h_3 | h_6 =>
    obtain ⟨rfl, harg⟩ := decodeDrain_eq_ok h
    exact congrArg (_ + ·) harg
  case h_7 =>
    obtain ⟨v, rfl, harg⟩ := decodeFwd_eq_ok h
    exact congrArg (_ + ·) harg

theorem encode_of_decode {w : CommandWord} {i : Instr} (h : decode w = .ok i) : encode i = w := by
  rw [← BitVec.toNat_inj, encode_toNat, fieldsOfWord_toNat w]
  exact (decodeFields_eq_ok h).symm

theorem decode_eq_ok_iff {w : CommandWord} {i : Instr} : decode w = .ok i ↔ encode i = w :=
  ⟨encode_of_decode, fun h => h ▸ decode_encode i⟩

/-- Settles O11: one direction of `decode_eq_ok_iff`, then the other. -/
theorem decodeAndEncodeAgree : Obligations.DecodeAndEncodeAgree :=
  ⟨decode_encode, fun _ _ => encode_of_decode⟩

/-! ### The rows of the table -/

/-- A row's mask leaves its command's operand field free and nothing else. -/
theorem tableRow_mask (i : Instr) : i.tableRow.mask = BitVec.allOnes 12 <<< i.operandBits := by
  cases i <;> simp [Instr.tableRow, Instr.operandBits]

/-- A word selects a command's row when it is the row's match value with some operand in the free bits. -/
theorem selects_tableRow_iff (i : Instr) (w : CommandWord) :
    w &&& i.tableRow.mask = i.tableRow.value ↔ w.toNat = i.tableRow.value.toNat + w.toNat % 2 ^ i.operandBits := by
  generalize hk : i.operandBits = k
  have hclear : (w >>> k <<< k).toNat = 2 ^ k * (w.toNat / 2 ^ k) := by
    rw [BitVec.toNat_shiftLeft, BitVec.toNat_ushiftRight, Nat.shiftRight_eq_div_pow, Nat.shiftLeft_eq, Nat.mul_comm,
      Nat.mod_eq_of_lt (lt_of_le_of_lt (Nat.mul_div_le _ _) w.isLt)]
  have hsplit : 2 ^ k * (w.toNat / 2 ^ k) + w.toNat % 2 ^ k = w.toNat := Nat.div_add_mod _ _
  rw [tableRow_mask, hk, ← BitVec.shiftLeft_ushiftRight, ← BitVec.toNat_inj, hclear]
  omega

/-- A command's word selects its own row and no other, whatever the operand. -/
theorem rowsSelectedBy_encode (i : Instr) : tableRows.filter (fun r => r.selectedBy (encode i)) = [i.tableRow] := by
  cases i with
  | encByte b => exact Laws.TableRowMatch.encByte b
  | encFlush m => exact Laws.TableRowMatch.encFlush m
  | encDrain => exact Laws.TableRowMatch.encDrain
  | decChar ch => exact Laws.TableRowMatch.decChar ch
  | decFlush m => exact Laws.TableRowMatch.decFlush m
  | decDrain => exact Laws.TableRowMatch.decDrain
  | symFwd v => exact Laws.TableRowMatch.symFwd v
  | symRev ch => exact Laws.TableRowMatch.symRev ch

theorem selectedBy_encode_iff {r : TableRow} {i : Instr} :
    r ∈ tableRows ∧ r.selectedBy (encode i) = true ↔ r = i.tableRow := by
  have hrow : r ∈ tableRows.filter (fun r => r.selectedBy (encode i)) ↔ r = i.tableRow := by
    rw [rowsSelectedBy_encode, List.mem_singleton]
  rwa [List.mem_filter] at hrow

theorem tableRow_mem (i : Instr) : i.tableRow ∈ tableRows := (selectedBy_encode_iff.mpr rfl).1

theorem encode_selects (i : Instr) : encode i &&& i.tableRow.mask = i.tableRow.value :=
  of_decide_eq_true (selectedBy_encode_iff.mpr rfl).2

/-- A word that selects a command's row and has the command's operand is the command's word. -/
theorem decode_of_selects {w : CommandWord} (i : Instr) (hop : i.operandValue = w.toNat % 2 ^ i.operandBits)
    (h : w &&& i.tableRow.mask = i.tableRow.value) : decode w = .ok i := by
  rw [decode_eq_ok_iff, ← BitVec.toNat_inj, encode_toNat, hop]
  exact ((selects_tableRow_iff i w).mp h).symm

section
variable {w : CommandWord}

/-! One lemma per row of R52, with the operand's field of R53. -/

theorem decode_encByte_row (h : w &&& 0xF00 = 0x000) : decode w = .ok (.encByte (w.extractLsb' 0 8)) :=
  decode_of_selects _ (extractLsb'_zero_toNat w 8) h

theorem decode_encFlush_row (h : w &&& 0xFFE = 0x100) : decode w = .ok (.encFlush (w.getLsbD 0)) :=
  decode_of_selects _ (toNat_getLsbD_zero w) h

theorem decode_encDrain_row (h : w &&& 0xFFF = 0x200) : decode w = .ok .encDrain :=
  decode_of_selects _ (Nat.mod_one _).symm h

theorem decode_decChar_row (h : w &&& 0xF00 = 0x400) : decode w = .ok (.decChar (w.extractLsb' 0 8)) :=
  decode_of_selects _ (extractLsb'_zero_toNat w 8) h

theorem decode_decFlush_row (h : w &&& 0xFFE = 0x500) : decode w = .ok (.decFlush (w.getLsbD 0)) :=
  decode_of_selects _ (toNat_getLsbD_zero w) h

theorem decode_decDrain_row (h : w &&& 0xFFF = 0x600) : decode w = .ok .decDrain :=
  decode_of_selects _ (Nat.mod_one _).symm h

theorem decode_symFwd_row (h : w &&& 0xFE0 = 0x800) : decode w = .ok (.symFwd (w.extractLsb' 0 5)) :=
  decode_of_selects _ (extractLsb'_zero_toNat w 5) h

theorem decode_symRev_row (h : w &&& 0xF00 = 0x900) : decode w = .ok (.symRev (w.extractLsb' 0 8)) :=
  decode_of_selects _ (extractLsb'_zero_toNat w 8) h

end

/-- The words that decode are the words that select a row. -/
theorem exists_decode_iff {w : CommandWord} :
    (∃ i, decode w = .ok i) ↔ ∃ r ∈ tableRows, w &&& r.mask = r.value := by
  constructor
  · rintro ⟨i, h⟩
    obtain rfl : encode i = w := encode_of_decode h
    exact ⟨i.tableRow, tableRow_mem i, encode_selects i⟩
  · rintro ⟨r, hr, h⟩
    simp only [tableRows, List.mem_cons, List.not_mem_nil, or_false] at hr
    rcases hr with rfl | rfl | rfl | rfl | rfl | rfl | rfl | rfl
    · exact ⟨_, decode_encByte_row h⟩
    · exact ⟨_, decode_encFlush_row h⟩
    · exact ⟨_, decode_encDrain_row h⟩
    · exact ⟨_, decode_decChar_row h⟩
    · exact ⟨_, decode_decFlush_row h⟩
    · exact ⟨_, decode_decDrain_row h⟩
    · exact ⟨_, decode_symFwd_row h⟩
    · exact ⟨_, decode_symRev_row h⟩

theorem selectsNone_iff {w : CommandWord} :
    (∀ r ∈ tableRows, w &&& r.mask ≠ r.value) ↔ ¬ ∃ i, decode w = .ok i := by
  simp only [exists_decode_iff, not_exists, not_and]

/-- The words that select no row are the words of the four classes of R56: no row's range of numbers holds such a word. -/
theorem selectsNone_iff_inReservedClass (w : CommandWord) :
    (∀ r ∈ tableRows, w &&& r.mask ≠ r.value) ↔ inReservedClass w.toNat = true := by
  have hrows : tableRows = [Instr.encByte 0, .encFlush false, .encDrain, .decChar 0, .decFlush false, .decDrain,
    .symFwd 0, .symRev 0].map Instr.tableRow := rfl
  rw [hrows]
  simp only [List.forall_mem_map, ne_eq, selects_tableRow_iff]
  simp only [List.mem_cons, List.not_mem_nil, or_false, forall_eq_or_imp, forall_eq, Instr.tableRow, Instr.operandBits,
    BitVec.ofNat_eq_ofNat, BitVec.toNat_ofNat, inReservedClass, Reserved.covers, Bool.or_eq_true, decide_eq_true_eq]
  omega

/-! ### The sizes of the classes -/

theorem countP_range_le (c n : Nat) : (List.range n).countP (fun a => c ≤ a) = n - c := by
  induction n with
  | zero => simp
  | succ n ih =>
    rw [List.range_succ, List.countP_append, ih, List.countP_singleton]
    simp only [decide_eq_true_eq]
    split <;> omega

/-- Of the numbers of `k` blocks of `b`, those with a block of a given kind and a place in it from `c` on. -/
theorem countP_block_and_le (D : Nat → Prop) [DecidablePred D] (b c k : Nat) :
    (List.range (b * k)).countP (fun n => D (n / b) ∧ c ≤ n % b) = (List.range k).countP (fun d => D d) * (b - c) := by
  induction k with
  | zero => simp
  | succ k ih =>
    have hlast : ((List.range b).map (b * k + ·)).countP (fun n => D (n / b) ∧ c ≤ n % b) =
        (List.range b).countP (fun a => D k ∧ c ≤ a) := by
      rw [List.countP_map]
      refine List.countP_congr fun a ha => ?_
      have hab : a < b := List.mem_range.mp ha
      have hdiv : (b * k + a) / b = k := by
        rw [Nat.mul_add_div (by omega), Nat.div_eq_of_lt hab, Nat.add_zero]
      have hmod : (b * k + a) % b = a := by rw [Nat.mul_add_mod, Nat.mod_eq_of_lt hab]
      rw [Function.comp_apply, hdiv, hmod]
    rw [Nat.mul_succ, List.range_add, List.countP_append, ih, hlast, List.range_succ, List.countP_append, Nat.add_mul,
      List.countP_singleton]
    by_cases hD : D k
    · simp [hD, countP_range_le]
    · simp [hD]

theorem countP_covers_unusedOp : (List.range 4096).countP Reserved.unusedOp.covers = 2048 := by
  have hcovers : ∀ n ∈ List.range 4096, Reserved.unusedOp.covers n = true ↔
      decide (n / 256 ∈ [0x3, 0x7, 0xA, 0xB, 0xC, 0xD, 0xE, 0xF] ∧ 0 ≤ n % 256) = true :=
    fun n _ => by simp [Reserved.covers]
  exact (List.countP_congr hcovers).trans
    (countP_block_and_le (· ∈ [0x3, 0x7, 0xA, 0xB, 0xC, 0xD, 0xE, 0xF]) 256 0 16)

theorem countP_covers_flushArg : (List.range 4096).countP Reserved.flushArg.covers = 2 * 254 :=
  countP_block_and_le (fun d => d = 0x1 ∨ d = 0x5) 256 2 16

theorem countP_covers_drainArg : (List.range 4096).countP Reserved.drainArg.covers = 2 * 255 := by
  have hcovers : ∀ n ∈ List.range 4096, Reserved.drainArg.covers n = true ↔
      decide ((n / 256 = 0x2 ∨ n / 256 = 0x6) ∧ 1 ≤ n % 256) = true :=
    fun n _ => by simp [Reserved.covers, Nat.one_le_iff_ne_zero]
  exact (List.countP_congr hcovers).trans (countP_block_and_le (fun d => d = 0x2 ∨ d = 0x6) 256 1 16)

theorem countP_covers_fwdArg : (List.range 4096).countP Reserved.fwdArg.covers = 224 :=
  countP_block_and_le (fun d => d = 0x8) 256 0x20 16

/-! ### The answer to a reserved word -/

theorem step_of_reserved_word {s : State} {w : CommandWord} {rest : List HostEvent} {why : Reserved}
    (h : s.input = .command w :: rest) (hw : decode w = .error why) : step s = .next (answerErr (s.setInput rest)) := by
  simp [step, h, takeEvent, presentWord, hw]

/-- Settles O8: the classes and their sizes; and a word that selects no row does not decode, so the port answers it `Err`. -/
theorem reservedWordAnswersErrAndChangesNothing : Obligations.ReservedWordAnswersErrAndChangesNothing := by
  unfold Obligations.ReservedWordAnswersErrAndChangesNothing
  refine ⟨fun w => ?_, ⟨countP_covers_unusedOp, countP_covers_flushArg, countP_covers_drainArg, countP_covers_fwdArg⟩,
    fun s w rest hin hnone => ?_⟩
  · simpa only [inReservedClass, Reserved.covers, Bool.or_eq_true, decide_eq_true_eq] using
      selectsNone_iff_inReservedClass w
  · cases hw : decode w with
    | ok i => exact absurd ⟨i, hw⟩ (selectsNone_iff.mp hnone)
    | error why => exact step_of_reserved_word hin hw

/-! ### The check on a word's fields -/

theorem fieldsOfWord_digit (w : CommandWord) :
    4 * (Fields.ofWord w).unit.toNat + (Fields.ofWord w).op.toNat = w.toNat / 256 := by
  have h := fieldsOfWord_toNat w
  omega

theorem fieldsOfWord_arg (w : CommandWord) : (Fields.ofWord w).arg.toNat = w.toNat % 256 :=
  extractLsb'_zero_toNat w 8

theorem extractLsb'_eq_zero_iff (x : BitVec 8) {k n : Nat} (h : k + n = 8) : x.extractLsb' k n = 0 ↔ x.toNat < 2 ^ k := by
  rw [← BitVec.toNat_inj, BitVec.extractLsb'_toNat, Nat.shiftRight_eq_div_pow]
  have : x.toNat / 2 ^ k < 2 ^ n := by
    rw [Nat.div_lt_iff_lt_mul (Nat.two_pow_pos k), ← pow_add, Nat.add_comm, h]
    exact x.isLt
  rw [Nat.mod_eq_of_lt this]
  simp

/-- A check of the form "where the digit is one of these, the operand fits" refuses what has such a digit and does not fit. -/
theorem fits_iff {C A D B : Prop} [Decidable C] [Decidable A] (hC : C ↔ D) (hA : A ↔ ¬ B) :
    (if C then decide A else true) = true ↔ ¬ (D ∧ B) := by
  by_cases h : C
  · simp [h, hC.mp h, hA]
  · simp [h, mt hC.mpr h]

/-! Each of the four checks refuses the words of one class of R56. -/

theorem opAssigned_iff (w : CommandWord) :
    (Fields.ofWord w).opAssigned = true ↔ ¬ Reserved.unusedOp.covers w.toNat = true := by
  rw [Reserved.covers, ← fieldsOfWord_digit, Fields.opAssigned]
  generalize (Fields.ofWord w).unit = unit, (Fields.ofWord w).op = op
  revert unit op
  decide

theorem flushArgFits_iff (w : CommandWord) :
    (Fields.ofWord w).flushArgFits = true ↔ ¬ Reserved.flushArg.covers w.toNat = true := by
  have hdigit : ∀ unit op : BitVec 2, (unit = 0b00 ∨ unit = 0b01) ∧ op = 0b01 ↔
      4 * unit.toNat + op.toNat = 0x1 ∨ 4 * unit.toNat + op.toNat = 0x5 := by decide
  rw [Reserved.covers, decide_eq_true_eq, ← fieldsOfWord_digit, ← fieldsOfWord_arg]
  exact fits_iff (hdigit _ _) ((extractLsb'_eq_zero_iff _ rfl).trans Nat.not_le.symm)

theorem drainArgFits_iff (w : CommandWord) :
    (Fields.ofWord w).drainArgFits = true ↔ ¬ Reserved.drainArg.covers w.toNat = true := by
  have hdigit : ∀ unit op : BitVec 2, (unit = 0b00 ∨ unit = 0b01) ∧ op = 0b10 ↔
      4 * unit.toNat + op.toNat = 0x2 ∨ 4 * unit.toNat + op.toNat = 0x6 := by decide
  rw [Reserved.covers, decide_eq_true_eq, ← fieldsOfWord_digit, ← fieldsOfWord_arg]
  exact fits_iff (hdigit _ _) (BitVec.toNat_inj.symm.trans not_not.symm)

theorem fwdArgFits_iff (w : CommandWord) :
    (Fields.ofWord w).fwdArgFits = true ↔ ¬ Reserved.fwdArg.covers w.toNat = true := by
  have hdigit : ∀ unit op : BitVec 2, unit = 0b10 ∧ op = 0b00 ↔ 4 * unit.toNat + op.toNat = 0x8 := by decide
  rw [Reserved.covers, decide_eq_true_eq, ← fieldsOfWord_digit, ← fieldsOfWord_arg]
  exact fits_iff (hdigit _ _) ((extractLsb'_eq_zero_iff _ rfl).trans Nat.not_le.symm)

theorem wellFormed_iff_exists_decode (w : CommandWord) :
    (Fields.ofWord w).wellFormed = true ↔ ∃ i, decode w = .ok i := by
  rw [← not_iff_not, ← selectsNone_iff, selectsNone_iff_inReservedClass, Fields.wellFormed]
  simp only [inReservedClass, Bool.and_eq_true, Bool.or_eq_true, opAssigned_iff, flushArgFits_iff, drainArgFits_iff, fwdArgFits_iff]
  tauto

/-- Settles O10: a lemma per row, then that the words that decode are the words that select a row and the words that the check
accepts. -/
theorem decodeFollowsTheOpcodeTable : Obligations.DecodeFollowsTheOpcodeTable := by
  unfold Obligations.DecodeFollowsTheOpcodeTable
  exact fun w => ⟨decode_encByte_row, decode_encFlush_row, decode_encDrain_row, decode_decChar_row, decode_decFlush_row,
    decode_decDrain_row, decode_symFwd_row, decode_symRev_row, fun h i hi => selectsNone_iff.mp h ⟨i, hi⟩,
    wellFormed_iff_exists_decode w⟩

/-! ### The numbers of legal and of reserved words -/

theorem tableRow_eq_of_selectedBy {w : CommandWord} {i : Instr} {r : TableRow} (hw : decode w = .ok i)
    (hr : r ∈ tableRows) (h : r.selectedBy w = true) : r = i.tableRow :=
  selectedBy_encode_iff.mp ⟨hr, encode_of_decode hw ▸ h⟩

theorem isReservedWord_eq_inReservedClass {n : Nat} (h : n < 4096) : isReservedWord n = inReservedClass n := by
  have hiff := selectsNone_iff_inReservedClass (BitVec.ofNat 12 n)
  rw [BitVec.toNat_ofNat, Nat.mod_eq_of_lt h] at hiff
  rw [Bool.eq_iff_iff, ← hiff]
  simp [isReservedWord, isLegalWord, TableRow.selectedBy]

theorem countP_or_of_disjoint {p q : Nat → Bool} {l : List Nat} (h : ∀ n ∈ l, ¬ (p n = true ∧ q n = true)) :
    l.countP (fun n => p n || q n) = l.countP p + l.countP q := by
  induction l with
  | nil => rfl
  | cons n l ih =>
    have hn : ¬ (p n = true ∧ q n = true) := h n List.mem_cons_self
    have hl := ih fun m hm => h m (List.mem_cons_of_mem n hm)
    rw [List.countP_cons, List.countP_cons, List.countP_cons, hl]
    grind

/-- The four classes are disjoint, so their sizes add up. -/
theorem countP_isReservedWord : (List.range 4096).countP isReservedWord = 3290 := by
  have hclasses : (List.range 4096).countP isReservedWord = (List.range 4096).countP inReservedClass :=
    List.countP_congr fun n hn => by rw [isReservedWord_eq_inReservedClass (List.mem_range.mp hn)]
  unfold inReservedClass at hclasses
  rw [hclasses, countP_or_of_disjoint, countP_or_of_disjoint, countP_or_of_disjoint, countP_covers_unusedOp,
    countP_covers_flushArg, countP_covers_drainArg, countP_covers_fwdArg]
  all_goals
    intro n _
    simp only [Reserved.covers, List.mem_cons, List.not_mem_nil, or_false, Bool.or_eq_true, decide_eq_true_eq]
    omega

theorem countP_isLegalWord : (List.range 4096).countP isLegalWord = 806 := by
  have hall := List.length_eq_countP_add_countP isLegalWord (l := List.range 4096)
  have hrest : (List.range 4096).countP (fun n => ¬ isLegalWord n) = (List.range 4096).countP isReservedWord :=
    List.countP_congr fun n _ => by simp [isReservedWord]
  rw [List.length_range, hrest, countP_isReservedWord] at hall
  omega

/-- Settles O9: rows that one word selects are the row of the command it decodes to; the reserved words are counted by class, and
the legal words are the rest. -/
theorem tableRowsAreDisjointAndCounted : Obligations.TableRowsAreDisjointAndCounted := by
  unfold Obligations.TableRowsAreDisjointAndCounted
  refine ⟨fun w r hr q hq hrw hqw => ?_, countP_isLegalWord, countP_isReservedWord⟩
  obtain ⟨i, hw⟩ := exists_decode_iff.mpr ⟨r, hr, of_decide_eq_true hrw⟩
  rw [tableRow_eq_of_selectedBy hw hr hrw, tableRow_eq_of_selectedBy hw hq hqw]

/-- Settles O12: each word is the encoding of its command. -/
theorem specWordsDecodeToTheirCommands : Obligations.SpecWordsDecodeToTheirCommands :=
  ⟨decode_encode (.encByte 0x6C), decode_encode (.encFlush true), decode_encode (.encFlush false), decode_encode .encDrain,
    decode_encode (.decChar 0x4E), decode_encode (.decFlush true), decode_encode .decDrain, decode_encode (.symFwd 13),
    decode_encode (.symRev 0x4F)⟩

end Sys2Proof.Machine

/-!
The assembler syntax (`30_encoding.md` R58): how a line of one or two plain words is read, that a written number or flag is read
back, and so that the line of a command assembles to the command.
-/

namespace Sys2Proof.Machine

/-! ### Reading a word -/

/-- A character that stands for itself in a line: no blank, semicolon, comma or quote. -/
def isPlain (c : CharCode) : Bool := !isBlank c && !(c = 0x3B || c = 0x2C || c = 0x27 || c = 0x22)

/-- A text that a line can hold as one word. -/
def isWord (cs : List CharCode) : Bool := !cs.isEmpty && cs.all isPlain

theorem tokens_between_plain {c : CharCode} (h : isPlain c = true) (rest : List CharCode) :
    tokens .between (c :: rest) = tokens (.inWord [c]) rest := by
  simp_all [isPlain, tokens]

theorem tokens_inWord_plain {c : CharCode} (h : isPlain c = true) (cs rest : List CharCode) :
    tokens (.inWord cs) (c :: rest) = tokens (.inWord (c :: cs)) rest := by
  simp_all [isPlain, tokens]

theorem tokens_inWord_append {text : List CharCode} (h : text.all isPlain = true) (cs rest : List CharCode) :
    tokens (.inWord cs) (text ++ rest) = tokens (.inWord (text.reverse ++ cs)) rest := by
  induction text generalizing cs with
  | nil => rfl
  | cons c text ih =>
    rw [List.all_cons, Bool.and_eq_true] at h
    obtain ⟨hc, htext⟩ := h
    rw [List.cons_append, tokens_inWord_plain hc, ih htext, List.reverse_cons, List.append_assoc, List.singleton_append]

section
variable {word : List CharCode} (h : isWord word = true)
include h

theorem tokens_between_append (rest : List CharCode) :
    tokens .between (word ++ rest) = tokens (.inWord word.reverse) rest := by
  cases word with
  | nil => cases h
  | cons c text =>
    obtain ⟨hc, htext⟩ : isPlain c = true ∧ text.all isPlain = true := by simpa [isWord] using h
    rw [List.cons_append, tokens_between_plain hc, tokens_inWord_append htext, List.reverse_cons]

theorem tokens_word : tokens .between word = some [.word word] := by
  have hread := tokens_between_append h []
  rwa [List.append_nil, tokens, List.reverse_reverse] at hread

theorem tokens_word_space (rest : List CharCode) :
    tokens .between (word ++ 0x20 :: rest) = (tokens .between rest).map (.word word :: ·) := by
  rw [tokens_between_append h, tokens, if_pos (by rfl), List.reverse_reverse]

theorem assembleLine_word : assembleLine word = assembleTokens word [] := by
  rw [assembleLine, tokens_word h]
  rfl

theorem assembleLine_two_words {operand : List CharCode} (hop : isWord operand = true) :
    assembleLine (word ++ 0x20 :: operand) = assembleTokens word [.word operand] := by
  rw [assembleLine, tokens_word_space h, tokens_word hop]
  rfl

end

/-! ### Numbers and flags -/

theorem isPlain_hexDigit : ∀ d < 16, isPlain (hexDigit d) = true := by decide

theorem digitValue_hexDigit : ∀ d < 16, digitValue 16 (hexDigit d) = some d := by decide

theorem isWord_flagText (m : Bool) : isWord (flagText m) = true := by
  revert m; decide

theorem flushOperand_flagText (m : Bool) : flushOperand [.word (flagText m)] = some m := by
  cases m <;> rfl

section
variable {n : Nat} (h : n < 256)
include h

theorem isWord_hexNumber : isWord (hexNumber n) = true := by
  have hprefix : [0x30, 0x78].all isPlain = true := by decide
  have hhigh := isPlain_hexDigit (n / 16) (by omega)
  have hlow := isPlain_hexDigit (n % 16) (by omega)
  simpa [isWord, hexNumber, hhigh, hlow] using hprefix

theorem numberValue_hexNumber : numberValue (hexNumber n) = some n := by
  have hhigh := digitValue_hexDigit (n / 16) (by omega)
  have hlow := digitValue_hexDigit (n % 16) (by omega)
  have hvalue : 16 * (n / 16) + n % 16 = n := Nat.div_add_mod n 16
  simp [numberValue, hexNumber, digitsValue, hhigh, hlow, hvalue]

theorem boundedNumber_hexNumber {bound : Nat} (hbound : n < bound) :
    boundedNumber bound [.word (hexNumber n)] = some n := by
  simp [boundedNumber, numberValue_hexNumber h, hbound]

end

theorem byteOperand_hexNumber (b : Byte) : byteOperand [.word (hexNumber b.toNat)] = some b := by
  simp [byteOperand, boundedNumber_hexNumber b.isLt b.isLt]

/-! ### The line of a command -/

section
variable {word : List CharCode} (hword : isWord word = true)
include hword

theorem assembleLine_byteOperand {mk : Byte → Instr}
    (hmk : ∀ ops, assembleTokens word ops = (byteOperand ops).map ([mk ·])) (b : Byte) :
    assembleLine (word ++ 0x20 :: hexNumber b.toNat) = some [mk b] := by
  rw [assembleLine_two_words hword (isWord_hexNumber b.isLt), hmk, byteOperand_hexNumber, Option.map_some]

theorem assembleLine_flagOperand {mk : Bool → Instr}
    (hmk : ∀ ops, assembleTokens word ops = (flushOperand ops).map ([mk ·])) (m : Bool) :
    assembleLine (word ++ 0x20 :: flagText m) = some [mk m] := by
  rw [assembleLine_two_words hword (isWord_flagText m), hmk, flushOperand_flagText, Option.map_some]

end

theorem assembleLine_symFwd (v : SymVal) : assembleLine (asmLine (.symFwd v)) = some [.symFwd v] := by
  have hbyte : v.toNat < 256 := by omega
  calc assembleLine (ascii "SYM.FWD" ++ 0x20 :: hexNumber v.toNat)
    _ = assembleTokens (ascii "SYM.FWD") [.word (hexNumber v.toNat)] :=
      assembleLine_two_words (by decide) (isWord_hexNumber hbyte)
    _ = (boundedNumber 32 [.word (hexNumber v.toNat)]).map fun n => [.symFwd (BitVec.ofNat 5 n)] := rfl
    _ = some [.symFwd v] := by simp [boundedNumber_hexNumber hbyte v.isLt]

theorem assembleLine_asmLine (i : Instr) : assembleLine (asmLine i) = some [i] := by
  cases i with
  | encByte b => exact assembleLine_byteOperand (word := ascii "ENC.BYTE") (by decide) (fun _ => rfl) b
  | encFlush m => exact assembleLine_flagOperand (word := ascii "ENC.FLUSH") (by decide) (fun _ => rfl) m
  | encDrain => exact assembleLine_word (word := ascii "ENC.DRAIN") (by decide)
  | decChar ch => exact assembleLine_byteOperand (word := ascii "DEC.CHAR") (by decide) (fun _ => rfl) ch
  | decFlush m => exact assembleLine_flagOperand (word := ascii "DEC.FLUSH") (by decide) (fun _ => rfl) m
  | decDrain => exact assembleLine_word (word := ascii "DEC.DRAIN") (by decide)
  | symFwd v => exact assembleLine_symFwd v
  | symRev ch => exact assembleLine_byteOperand (word := ascii "SYM.REV") (by decide) (fun _ => rfl) ch

/-- Settles O44: each line is a mnemonic alone, or a mnemonic and one operand that is read back; a flush's mnemonic alone leaves
the flag at its default. -/
theorem assemblingALineGivesItsCommand : Obligations.AssemblingALineGivesItsCommand := by
  unfold Obligations.AssemblingALineGivesItsCommand
  exact ⟨assembleLine_asmLine, assembleLine_word (by decide), assembleLine_word (by decide)⟩

end Sys2Proof.Machine

/-!
SYMTAB (`40_symtab.md`): the forward table as runs of codes (R72), the case fold (R75), and `lookup` row by row (R77). The rows of
the canonical characters come from `lookup_memReadFwd`, those of the upper-case letters from `lookup_fold`.
-/

namespace Sys2Proof.Machine

/-- The code of the canonical character of value `n`, by the alphabet's six runs of codes (R72). -/
def canonicalCode (n : Nat) : Nat :=
  if n ≤ 9 then 0x30 + n
  else if n ≤ 17 then 0x61 + (n - 10)
  else if n ≤ 19 then 0x6A + (n - 18)
  else if n ≤ 21 then 0x6D + (n - 20)
  else if n ≤ 26 then 0x70 + (n - 22)
  else 0x76 + (n - 27)

/-- The entry of code `n` in the table of R77; `none` is `NotFound`. -/
def reverseRow (n : Nat) : Option SymVal :=
  if 0x30 ≤ n ∧ n ≤ 0x39 then some (BitVec.ofNat 5 (n - 0x30))
  else if 0x61 ≤ n ∧ n ≤ 0x68 then some (BitVec.ofNat 5 (n - 0x61 + 10))
  else if 0x41 ≤ n ∧ n ≤ 0x48 then some (BitVec.ofNat 5 (n - 0x41 + 10))
  else if n = 0x69 ∨ n = 0x49 then some 1
  else if n = 0x6A ∨ n = 0x4A then some 18
  else if n = 0x6B ∨ n = 0x4B then some 19
  else if n = 0x6C ∨ n = 0x4C then some 1
  else if n = 0x6D ∨ n = 0x4D then some 20
  else if n = 0x6E ∨ n = 0x4E then some 21
  else if n = 0x6F ∨ n = 0x4F then some 0
  else if 0x70 ≤ n ∧ n ≤ 0x74 then some (BitVec.ofNat 5 (n - 0x70 + 22))
  else if 0x50 ≤ n ∧ n ≤ 0x54 then some (BitVec.ofNat 5 (n - 0x50 + 22))
  else if 0x76 ≤ n ∧ n ≤ 0x7A then some (BitVec.ofNat 5 (n - 0x76 + 27))
  else if 0x56 ≤ n ∧ n ≤ 0x5A then some (BitVec.ofNat 5 (n - 0x56 + 27))
  else none

/-- The codes that R76 compares a folded code with: the canonical characters and those of `aliasTable`. -/
def lookupKeys : List CharCode := alphabet ++ aliasTable.map Prod.fst

/-! ### The two commands -/

theorem exec_symFwd (v : SymVal) (s : State) : exec (.symFwd v) s = .next (s.respond (.char (memReadFwd v))) := rfl

theorem exec_symRev (ch : CharCode) (s : State) : exec (.symRev ch) s = .next (s.respond (revResponse ch)) := rfl

theorem exec_symRev_of_some {ch : CharCode} {v : SymVal} (h : lookup ch = some v) (s : State) :
    exec (.symRev ch) s = .next (s.respond (.found v)) := by
  rw [exec_symRev, revResponse_eq, h]

theorem exec_symRev_of_none {ch : CharCode} (h : lookup ch = none) (s : State) :
    exec (.symRev ch) s = .next (s.respond .notFound) := by
  rw [exec_symRev, revResponse_eq, h]

/-! ### The forward table -/

theorem memReadFwd_toNat (v : SymVal) : (memReadFwd v).toNat = canonicalCode v.toNat := by
  revert v; decide

theorem memReadFwd_eq_ofNat (v : SymVal) : memReadFwd v = BitVec.ofNat 8 (canonicalCode v.toNat) := by
  rw [← memReadFwd_toNat, BitVec.ofNat_toNat, BitVec.setWidth_eq]

theorem canonicalCode_le {n : Nat} (hn : n < 32) : canonicalCode n ≤ 0x7A := by
  unfold canonicalCode
  split_ifs <;> omega

/-- The letters of the alphabet are lower case. -/
theorem le_canonicalCode {n : Nat} (hletter : 10 ≤ n) : 0x61 ≤ canonicalCode n := by
  unfold canonicalCode
  split_ifs <;> omega

theorem memReadFwd_ofNat_toNat {n : Nat} (hn : n < 32) : (memReadFwd (BitVec.ofNat 5 n)).toNat = canonicalCode n := by
  rw [memReadFwd_toNat, BitVec.toNat_ofNat, Nat.mod_eq_of_lt hn]

theorem memReadFwd_injective : Function.Injective memReadFwd := fun v w h =>
  Option.some_inj.mp <| calc
    some v = lookup (memReadFwd v) := (lookup_memReadFwd v).symm
    _ = lookup (memReadFwd w) := congrArg lookup h
    _ = some w := lookup_memReadFwd w

/-- Settles O23: the alphabet's runs; a character that two values shared would have two values in the reverse table. -/
theorem symFwdReadsTheCanonicalAlphabet : Obligations.SymFwdReadsTheCanonicalAlphabet := by
  unfold Obligations.SymFwdReadsTheCanonicalAlphabet
  refine ⟨fun v s _ => ?_, memReadFwd_injective⟩
  rw [exec_symFwd, memReadFwd_eq_ofNat, canonicalCode]

/-! ### The case fold -/

theorem fold_toNat (ch : CharCode) :
    (fold ch).toNat = if 0x41 ≤ ch.toNat ∧ ch.toNat ≤ 0x5A then ch.toNat + 0x20 else ch.toNat := by
  unfold fold
  split
  next h => exact BitVec.toNat_add_of_lt (by simp; omega)
  next => rfl

theorem fold_fold (ch : CharCode) : fold (fold ch) = fold ch := by
  rw [← BitVec.toNat_inj, fold_toNat (fold ch), fold_toNat ch]
  split_ifs <;> omega

/-- Lookup is case-insensitive. -/
theorem lookup_fold (ch : CharCode) : lookup (fold ch) = lookup ch := by
  rw [lookup, fold_fold, ← lookup]

/-- An upper-case letter has the entry of its lower-case form. -/
theorem lookup_of_lower_case {ch low : CharCode} (hlow : 0x61 ≤ low.toNat ∧ low.toNat ≤ 0x7A)
    (h : ch.toNat + 0x20 = low.toNat) : lookup ch = lookup low := by
  have hfold : fold ch = low := by
    rw [← BitVec.toNat_inj, fold_toNat, if_pos (by omega), h]
  rw [← lookup_fold, hfold]

/-! ### The reverse table -/

theorem canonicalValue_eq_none_iff {f : CharCode} : canonicalValue f = none ↔ f ∉ alphabet := by
  rw [canonicalValue, Option.map_eq_none_iff, List.findIdx?_eq_none_iff, ← List.forall_mem_ne']
  simp

theorem aliasValue_eq_none_iff {f : CharCode} : aliasValue f = none ↔ f ∉ aliasTable.map Prod.fst := by
  rw [aliasValue, Option.map_eq_none_iff, List.find?_eq_none, ← List.forall_mem_ne', List.forall_mem_map]
  simp

theorem lookup_eq_none_iff {ch : CharCode} : lookup ch = none ↔ fold ch ∉ lookupKeys := by
  rw [lookupKeys, List.mem_append, not_or, ← canonicalValue_eq_none_iff, ← aliasValue_eq_none_iff, lookup]
  cases canonicalValue (fold ch) <;> simp

/-- The keys are the digits and the lower-case letters without `u`. -/
theorem toNat_of_mem_lookupKeys : ∀ f ∈ lookupKeys,
    0x30 ≤ f.toNat ∧ f.toNat ≤ 0x39 ∨ 0x61 ≤ f.toNat ∧ f.toNat ≤ 0x7A ∧ f.toNat ≠ 0x75 := by decide

section
variable {ch : CharCode} {n : Nat}

theorem lookup_of_canonicalCode (hn : n < 32) (h : ch.toNat = canonicalCode n) :
    lookup ch = some (BitVec.ofNat 5 n) := by
  obtain rfl : memReadFwd (BitVec.ofNat 5 n) = ch := BitVec.toNat_inj.mp ((memReadFwd_ofNat_toNat hn).trans h.symm)
  exact lookup_memReadFwd _

theorem lookup_of_upper_canonicalCode (hletter : 10 ≤ n) (hn : n < 32) (h : ch.toNat + 0x20 = canonicalCode n) :
    lookup ch = some (BitVec.ofNat 5 n) := by
  rw [← memReadFwd_ofNat_toNat hn] at h
  have hlow : 0x61 ≤ ch.toNat + 0x20 ∧ ch.toNat + 0x20 ≤ 0x7A := by
    rw [h, memReadFwd_ofNat_toNat hn]
    exact ⟨le_canonicalCode hletter, canonicalCode_le hn⟩
  rw [lookup_of_lower_case (h ▸ hlow) h, lookup_memReadFwd]

/-- The codes that R77 leaves to `NotFound`: `u` in either case, and what is neither a digit nor a letter. -/
theorem lookup_eq_none_of_toNat (hdigit : ¬ (0x30 ≤ ch.toNat ∧ ch.toNat ≤ 0x39))
    (hlower : ¬ (0x61 ≤ ch.toNat ∧ ch.toNat ≤ 0x7A ∧ ch.toNat ≠ 0x75))
    (hupper : ¬ (0x41 ≤ ch.toNat ∧ ch.toNat ≤ 0x5A ∧ ch.toNat ≠ 0x55)) : lookup ch = none := by
  rw [lookup_eq_none_iff]
  intro hkey
  have hcodes := toNat_of_mem_lookupKeys _ hkey
  rw [fold_toNat] at hcodes
  split_ifs at hcodes <;> omega

/-- A letter in either case has the entry of the lower-case code. -/
theorem lookup_of_letter (hn : 0x61 ≤ n ∧ n ≤ 0x7A) (h : ch.toNat = n ∨ ch.toNat = n - 0x20) :
    lookup ch = lookup (BitVec.ofNat 8 n) := by
  have hcode : (BitVec.ofNat 8 n).toNat = n := by
    rw [BitVec.toNat_ofNat]
    omega
  rcases h with h | h
  · rw [← h, BitVec.ofNat_toNat, BitVec.setWidth_eq]
  · exact lookup_of_lower_case (hcode.symm ▸ hn) (by omega)

end

/-- The table of R77, by the four kinds of its rows: runs of canonical characters, runs of their upper-case forms, letters listed
alone, and the codes not found. -/
theorem lookup_eq_reverseRow (ch : CharCode) : lookup ch = reverseRow ch.toNat := by
  fun_cases reverseRow ch.toNat
  case case1 | case2 | case11 | case13 =>
    exact lookup_of_canonicalCode (by omega) (by grind [canonicalCode])
  case case3 | case12 | case14 =>
    exact lookup_of_upper_canonicalCode (by omega) (by omega) (by grind [canonicalCode])
  case case4 h | case5 h | case6 h | case7 h | case8 h | case9 h | case10 h =>
    exact (lookup_of_letter (by decide) h).trans rfl
  case case15 =>
    exact lookup_eq_none_of_toNat (by omega) (by omega) (by omega)

theorem countP_isSome_lookup : (List.range 256).countP (fun n => (lookup (BitVec.ofNat 8 n)).isSome) = 60 := by
  have htable : (List.range 256).countP (fun n => (lookup (BitVec.ofNat 8 n)).isSome) =
      (List.range 256).countP (fun n => (reverseRow n).isSome) :=
    List.countP_congr fun n hn => by
      rw [lookup_eq_reverseRow, BitVec.toNat_ofNat, Nat.mod_eq_of_lt (List.mem_range.mp hn)]
  rw [htable]
  decide +kernel

/-- Settles O24: `lookup` is the table `reverseRow`, whose rows are counted and then answered one by one. -/
theorem symRevFollowsTheReverseTable : Obligations.SymRevFollowsTheReverseTable := by
  unfold Obligations.SymRevFollowsTheReverseTable
  refine ⟨countP_isSome_lookup, fun ch s _ => ?_⟩
  rw [exec_symRev, revResponse_eq, lookup_eq_reverseRow]
  fun_cases reverseRow ch.toNat
  all_goals simp only [*, if_true, if_false, and_self]

/-! ### The codes that only the reverse table has -/

/-- A code with the value of a character other than itself is no canonical character. -/
theorem memReadFwd_ne_of_lookup {ch : CharCode} {v : SymVal} (h : lookup ch = some v) (hne : memReadFwd v ≠ ch)
    (w : SymVal) : memReadFwd w ≠ ch := by
  rintro rfl
  obtain rfl : w = v := Option.some_inj.mp ((lookup_memReadFwd w).symm.trans h)
  exact hne rfl

theorem lookup_upper_case {v : SymVal} (hv : 10 ≤ v.toNat) : lookup (memReadFwd v - 0x20) = some v := by
  have hletter := le_canonicalCode hv
  have hcode : (memReadFwd v - 0x20).toNat + 0x20 = canonicalCode v.toNat := by
    rw [← memReadFwd_toNat] at hletter ⊢
    bv_omega
  rw [lookup_of_upper_canonicalCode hv v.isLt hcode, BitVec.ofNat_toNat, BitVec.setWidth_eq]

theorem lookup_aliasCode :
    ∀ p ∈ ([(0x6F, 0), (0x4F, 0), (0x69, 1), (0x49, 1), (0x6C, 1), (0x4C, 1)] : List (CharCode × SymVal)),
      lookup p.1 = some p.2 ∧ memReadFwd p.2 ≠ p.1 :=
  List.all_iff_forall_prop.mp (by decide)

/-- Settles O25: the canonical characters and the marker by the lemmas of `lookup`; each of the other codes has the value of a
character that it is not. -/
theorem reverseTableInvertsTheForwardTable : Obligations.ReverseTableInvertsTheForwardTable := by
  unfold Obligations.ReverseTableInvertsTheForwardTable
  refine ⟨fun v s _ => exec_symRev_of_some (lookup_memReadFwd v) s, fun v s _ hv => ?_, fun p hp s _ => ?_,
    fun s _ => exec_symRev_of_none lookup_marker s⟩
  · have hupper := lookup_upper_case hv
    exact ⟨exec_symRev_of_some hupper s, memReadFwd_ne_of_lookup hupper (by bv_omega)⟩
  · obtain ⟨hvalue, hother⟩ := lookup_aliasCode p hp
    exact ⟨exec_symRev_of_some hvalue s, memReadFwd_ne_of_lookup hvalue hother⟩

end Sys2Proof.Machine

/-!
ENC over whole messages (`41_encoder.md`). First what one command does to a legal session, for each carry count (R90 to R93, R95,
R97); then the message as a bitstream that the commands cut from the front (R94); then the sequential loop of section 3.
-/

namespace Sys2Proof.Machine

/-! ### The three commands -/

theorem exec_encDrain (s : State) :
    exec .encDrain s = .next ((s.setEnc s.enc.emptied).respond (.chars s.enc.out)) := rfl

theorem exec_decDrain (s : State) :
    exec .decDrain s = .next ((s.setDec s.dec.emptied).respond (.bytes s.dec.out)) := rfl

theorem exec_encByte_of_encPack {s : State} {b : Byte} {e : EncSession} (hs : s.enc.Legal) (h : encPack b s.enc = e) :
    exec (.encByte b) s = .next ((s.setEnc e).respond .ack) := by
  rw [← h, ← encAfterByte_of_legal hs]
  rfl

theorem exec_encFlush_of_out {s : State} {m : Bool} {out : List CharCode} (hs : s.enc.Legal)
    (h : s.enc.out ++ (encPadSymbol s.enc ++ encMarker m) = out) :
    exec (.encFlush m) s = .next ((s.setEnc { off := 0, acc := 0x00, out := out }).respond .ack) := by
  rw [← h, ← encAfterFlush_of_legal hs]
  rfl

/-- Settles O16: a drain is the emptied session, whose registers are the old ones, and the queue as the response. -/
theorem drainReturnsAndEmptiesOnlyItsQueue : Obligations.DrainReturnsAndEmptiesOnlyItsQueue :=
  fun s _ => ⟨exec_encDrain s, exec_decDrain s⟩

/-! ### The carry bits -/

theorem EncSession.pending_length (e : EncSession) : e.pending.length = carryCount e.off := by
  rw [EncSession.pending, List.length_take, bitsMsbFirst_length, min_eq_left (carryCount_le e.off)]

theorem EncSession.Legal.carryCount_lt {e : EncSession} (h : e.Legal) : carryCount e.off < 5 := by
  have hrange := h.1
  rw [carryCount]
  omega

/-- ENC.OFF is the negative of the carry count (R13). -/
theorem EncSession.Legal.toInt_off {e : EncSession} (h : e.Legal) : e.off.toInt = -(carryCount e.off : Int) := by
  have hrange := h.1
  rw [carryCount]
  omega

theorem EncSession.Legal.off_eq {e : EncSession} (h : e.Legal) : e.off = BitVec.ofInt 4 (-(carryCount e.off : Int)) := by
  rw [← h.toInt_off, BitVec.ofInt_toInt]

theorem EncSession.Legal.acc_low_bits {e : EncSession} (h : e.Legal) {i : Nat} (hi : i < 8 - carryCount e.off) :
    e.acc.getLsbD i = false := getLsbD_eq_false_of_and_mask h.2 hi

theorem EncSession.Legal.acc_of_no_carry {e : EncSession} (h : e.Legal) (hc : carryCount e.off = 0) : e.acc = 0x00 :=
  BitVec.eq_of_getLsbD_eq fun _ hi => (h.acc_low_bits (by rwa [hc])).trans BitVec.getLsbD_zero.symm

/-! ### `ENC.FLUSH` -/

/-- A register with `r` carry bits at the top: its top five bits are those, then zeros. -/
theorem padGroup_eq {acc : Byte} {r k : Nat} (hrk : r + k = 5) (h : ∀ i, i < 8 - r → acc.getLsbD i = false) :
    acc.extractLsb' 3 5 = (acc.extractLsb' (8 - r) r ++ 0#k).cast hrk := by
  apply BitVec.eq_of_getLsbD_eq
  intro i hi
  rw [BitVec.getLsbD_cast, BitVec.getLsbD_append, BitVec.getLsbD_extractLsb', BitVec.getLsbD_extractLsb']
  by_cases hik : i < k
  · simp [hik, h (3 + i) (by omega)]
  · have hir : i - k < r := by omega
    have hpos : 8 - r + (i - k) = 3 + i := by omega
    simp [hik, hi, hir, hpos]

theorem encPadSymbol_of_no_carry {e : EncSession} (h : ¬ e.off.toInt < 0) : encPadSymbol e = [] := if_neg h

theorem encPadSymbol_of_carry {e : EncSession} (h : e.off.toInt < 0) :
    encPadSymbol e = [memReadFwd (e.acc.extractLsb' 3 5)] := if_pos h

section
variable {s : State}

theorem exec_encFlush_of_no_carry (hs : s.enc.Legal) (ho : s.enc.off = 0) (m : Bool) :
    exec (.encFlush m) s = .next ((s.setEnc
      { off := 0, acc := 0x00, out := s.enc.out ++ encMarker m }).respond .ack) := by
  apply exec_encFlush_of_out hs
  rw [encPadSymbol_of_no_carry (by rw [ho]; decide), List.nil_append]

/-- With `r` carry bits, the pad symbol is that of these bits followed by `k` zeros. -/
theorem exec_encFlush_of_carry (hs : s.enc.Legal) (m : Bool) {r k : Nat} (hrk : r + k = 5)
    (ho : s.enc.off.toInt < 0 ∧ carryCount s.enc.off = r) :
    exec (.encFlush m) s = .next ((s.setEnc
      { off := 0, acc := 0x00,
        out := s.enc.out ++ [memReadFwd ((s.enc.acc.extractLsb' (8 - r) r ++ 0#k).cast hrk)] ++
          encMarker m }).respond .ack) := by
  obtain ⟨hneg, rfl⟩ := ho
  apply exec_encFlush_of_out hs
  rw [encPadSymbol_of_carry hneg, padGroup_eq hrk fun i hi => hs.acc_low_bits hi, List.append_assoc]

end

/-- Settles O15: no pad symbol without carry bits; else one lemma for the four carry counts. -/
theorem encFlushPadsThenMarksThenClears : Obligations.EncFlushPadsThenMarksThenClears := by
  unfold Obligations.EncFlushPadsThenMarksThenClears
  intro m s hs
  refine ⟨fun ho => exec_encFlush_of_no_carry hs.1 ho m, fun ho => ?_, fun ho => ?_, fun ho => ?_, fun ho => ?_⟩
  · exact exec_encFlush_of_carry hs.1 m (r := 1) (k := 4) rfl (by rw [ho]; decide)
  · exact exec_encFlush_of_carry hs.1 m (r := 2) (k := 3) rfl (by rw [ho]; decide)
  · exact exec_encFlush_of_carry hs.1 m (r := 3) (k := 2) rfl (by rw [ho]; decide)
  · exact exec_encFlush_of_carry hs.1 m (r := 4) (k := 1) rfl (by rw [ho]; decide)

/-! ### What `ENC.BYTE` and `ENC.FLUSH` append -/

theorem mem_alphabet_of_mem_encPadSymbol {e : EncSession} {c : CharCode} (h : c ∈ encPadSymbol e) : c ∈ alphabet := by
  by_cases hoff : e.off.toInt < 0
  · rw [encPadSymbol_of_carry hoff, List.mem_singleton] at h
    exact h ▸ memReadFwd_mem _
  · rw [encPadSymbol_of_no_carry hoff] at h
    cases h

theorem mem_encMarker_iff {m : Bool} {c : CharCode} : c ∈ encMarker m ↔ c = marker ∧ m = true := by
  cases m <;> simp [encMarker]

/-- Settles O19: the symbols of `ENC.BYTE` and the pad symbol are read from the forward table, whose entries are the alphabet. -/
theorem encoderEmitsOnlyTheAlphabetAndTheMarker : Obligations.EncoderEmitsOnlyTheAlphabetAndTheMarker := by
  unfold Obligations.EncoderEmitsOnlyTheAlphabetAndTheMarker
  intro i s t hs h
  have henc : t.enc = encEffect i s.enc := enc_of_exec_next h
  cases i with
  | encByte b =>
    obtain ⟨-, -, hout⟩ := encPack_stream hs.1 b
    refine ⟨_, (congrArg EncSession.out (henc.trans (encAfterByte_of_legal hs.1 b))).trans hout, fun c hc => ?_⟩
    obtain ⟨g, -, rfl⟩ := List.mem_map.mp hc
    exact .inl (memReadFwd_mem _)
  | encFlush m =>
    refine ⟨_, congrArg EncSession.out (henc.trans (encAfterFlush_of_legal hs.1 m)), fun c happended => ?_⟩
    rcases List.mem_append.mp happended with hpad | hmark
    · exact .inl (mem_alphabet_of_mem_encPadSymbol hpad)
    · obtain ⟨hc, rfl⟩ := mem_encMarker_iff.mp hmark
      exact .inr ⟨hc, rfl⟩
  | encDrain => exact congrArg EncSession.out henc
  | decChar | decFlush | decDrain | symFwd | symRev => exact congrArg EncSession.out henc

/-- Settles O14: with `c` carry bits the groups appended are `(c + 8) / 5` many. -/
theorem encByteAppendsOneOrTwoSymbols : Obligations.EncByteAppendsOneOrTwoSymbols := by
  unfold Obligations.EncByteAppendsOneOrTwoSymbols
  intro b s hs
  obtain ⟨-, -, hout⟩ := encPack_stream hs.1 b
  refine ⟨_, _, exec_encByte_of_encPack hs.1 rfl, hout, ?_⟩
  rw [List.length_map, List.length_range, EncSession.pending_length]
  rcases hs.1.off_cases with ho | ho | ho | ho | ho <;> rw [ho] <;> decide

/-! ### A bitstream cut into groups of five -/

/-- The symbols of the whole groups of a bitstream (`20_memory.md` R34). -/
def wholeGroups (S : List Bool) : List CharCode := (List.range (S.length / 5)).map fun g => memReadFwd (streamGroup S g)

/-- The bits of a bitstream after its whole groups. -/
def partialGroup (S : List Bool) : List Bool := S.drop (5 * (S.length / 5))

theorem wholeGroups_length (S : List Bool) : (wholeGroups S).length = S.length / 5 := by
  simp [wholeGroups]

theorem wholeGroups_of_lt {S : List Bool} (h : S.length < 5) : wholeGroups S = [] := by
  simp [wholeGroups, Nat.div_eq_of_lt h]

theorem partialGroup_of_lt {S : List Bool} (h : S.length < 5) : partialGroup S = S := by
  simp [partialGroup, Nat.div_eq_of_lt h]

theorem partialGroup_length (S : List Bool) : (partialGroup S).length = S.length % 5 := by
  rw [partialGroup, List.length_drop]
  omega

theorem partialGroup_append_eq_drop (S R : List Bool) :
    partialGroup S ++ R = (S ++ R).drop (5 * (S.length / 5)) :=
  (List.drop_append_of_le_length (Nat.mul_div_le _ _)).symm

theorem append_length_div_five (S R : List Bool) :
    (S ++ R).length / 5 = S.length / 5 + (partialGroup S ++ R).length / 5 := by
  rw [List.length_append, List.length_append, partialGroup_length]
  omega

/-- Cutting a stream and then its rest followed by more bits is cutting the whole. -/
theorem wholeGroups_append (S R : List Bool) :
    wholeGroups (S ++ R) = wholeGroups S ++ wholeGroups (partialGroup S ++ R) := by
  rw [wholeGroups, append_length_div_five, List.range_add, List.map_append, List.map_map]
  congr 1
  · refine List.map_congr_left fun g hg => ?_
    have : g < S.length / 5 := List.mem_range.mp hg
    rw [streamGroup_append R (by omega)]
  · refine List.map_congr_left fun g _ => ?_
    rw [Function.comp_apply, partialGroup_append_eq_drop, streamGroup_drop]

theorem partialGroup_append (S R : List Bool) : partialGroup (S ++ R) = partialGroup (partialGroup S ++ R) := by
  rw [partialGroup, append_length_div_five, Nat.mul_add, ← List.drop_drop, ← partialGroup_append_eq_drop, ← partialGroup]

/-! ### A message -/

theorem EncSession.Legal.pending_length_lt {e : EncSession} (h : e.Legal) : e.pending.length < 5 :=
  e.pending_length ▸ h.carryCount_lt

theorem EncSession.pending_of_off_zero {e : EncSession} (h : e.off = 0) : e.pending = [] :=
  List.eq_nil_of_length_eq_zero (by rw [e.pending_length, h]; rfl)

theorem encPack_pending {e : EncSession} (h : e.Legal) (b : Byte) :
    (encPack b e).pending = partialGroup (e.pending ++ bitsMsbFirst b) := by
  rw [(encPack_stream h b).2.1, partialGroup, List.length_append, bitsMsbFirst_length]

theorem encPack_out {e : EncSession} (h : e.Legal) (b : Byte) :
    (encPack b e).out = e.out ++ wholeGroups (e.pending ++ bitsMsbFirst b) := by
  rw [(encPack_stream h b).2.2, wholeGroups, List.length_append, bitsMsbFirst_length]

/-- The characters that a list of commands drains. -/
def drained (cmds : List Instr) (e : EncSession) (d : DecSession) : List CharCode :=
  (answersOf cmds e d).flatMap Response.charsPart

theorem drained_cons (i : Instr) (cmds : List Instr) (e : EncSession) (d : DecSession) :
    drained (i :: cmds) e d =
      (answerOf i e.out d.out).charsPart ++ drained cmds (encEffect i e) (decEffect i d) := rfl

/-- Only `ENC.DRAIN` answers characters of ENC.OUT. -/
theorem charsPart_answerOf_of_other_unit {i : Instr} (h : i.blockUnit ≠ .enc) (cs : List CharCode) (bs : List Byte) :
    (answerOf i cs bs).charsPart = [] := by
  cases i with
  | encByte | encFlush | encDrain => exact absurd rfl h
  | decChar | decFlush | decDrain | symFwd => rfl
  | symRev ch =>
    rw [answerOf, revResponse]
    split <;> rfl

/-- What a message does, from any legal session: the carry bits followed by the bytes' bits are cut into groups. -/
structure CutsIntoGroups (cmds : List Instr) (e : EncSession) (d : DecSession) (S : List Bool) : Prop where
  legal : (encRun cmds e).Legal
  pending : (encRun cmds e).pending = partialGroup S
  out : drained cmds e d ++ (encRun cmds e).out = e.out ++ wholeGroups S

/-- R94's induction, over the commands: `ENC.BYTE` cuts its groups off the stream, `ENC.DRAIN` moves the queue to the answers, and
the other units' commands do neither. -/
theorem cutsIntoGroups {cmds : List Instr} (hflush : ∀ p, Instr.encFlush p ∉ cmds) {e : EncSession} (he : e.Legal)
    (d : DecSession) : CutsIntoGroups cmds e d (e.pending ++ byteStream (bytesGiven cmds)) := by
  induction cmds generalizing e d with
  | nil =>
    have hlt : (e.pending ++ byteStream (bytesGiven [])).length < 5 := by
      simpa [bytesGiven] using he.pending_length_lt
    refine ⟨he, ?_, ?_⟩
    · rw [partialGroup_of_lt hlt]
      exact (List.append_nil _).symm
    · rw [wholeGroups_of_lt hlt, List.append_nil]
      rfl
  | cons i cmds ih =>
    have hrest : ∀ p, Instr.encFlush p ∉ cmds := fun p hp => hflush p (List.mem_cons_of_mem _ hp)
    obtain ⟨hlegal, hpending, hout⟩ := ih hrest (he.effect i) (decEffect i d)
    cases i with
    | encByte b =>
      have hpack : encEffect (.encByte b) e = encPack b e := encAfterByte_of_legal he b
      have hstream : e.pending ++ byteStream (bytesGiven (.encByte b :: cmds)) =
          (e.pending ++ bitsMsbFirst b) ++ byteStream (bytesGiven cmds) := (List.append_assoc _ _ _).symm
      rw [hpack, encPack_pending he] at hpending hout
      refine ⟨hlegal, ?_, ?_⟩
      · rw [hstream, partialGroup_append, ← hpending, ← hpack]
        rfl
      · rw [hstream, wholeGroups_append, ← List.append_assoc, ← encPack_out he, ← hout, ← hpack]
        rfl
    | encFlush m => exact absurd List.mem_cons_self (hflush m)
    | encDrain => exact ⟨hlegal, hpending, by rw [drained_cons, List.append_assoc]; exact congrArg (e.out ++ ·) hout⟩
    | decChar | decFlush | decDrain | symFwd | symRev =>
      exact ⟨hlegal, hpending, by rw [drained_cons, charsPart_answerOf_of_other_unit (by simp [Instr.blockUnit])]; exact hout⟩

/-! ### The end of a message -/

theorem bitsMsbFirst_getElem {n i : Nat} (x : BitVec n) (h : i < (bitsMsbFirst x).length) :
    (bitsMsbFirst x)[i] = x.getMsbD i := by
  simp [bitsMsbFirst]

/-- The bits of the pad group: the carry bits, then zeros. -/
theorem EncSession.Legal.bitsMsbFirst_padGroup {e : EncSession} (h : e.Legal) :
    bitsMsbFirst (e.acc.extractLsb' 3 5) = e.pending ++ List.replicate (5 - e.pending.length) false := by
  have hlt := h.pending_length_lt
  apply List.ext_getElem
  · simp; omega
  intro i hi _
  rw [bitsMsbFirst_length] at hi
  have hpos : 3 + (5 - 1 - i) = 8 - 1 - i := by omega
  rw [bitsMsbFirst_getElem, BitVec.getMsbD_eq_getLsbD, BitVec.getLsbD_extractLsb', hpos, List.getElem_append]
  split
  next hlow =>
    simp only [EncSession.pending, List.getElem_take, bitsMsbFirst_getElem, BitVec.getMsbD_eq_getLsbD]
    simp [hi, show i < 8 by omega, show 4 - i < 5 by omega]
  next hhigh =>
    rw [EncSession.pending_length] at hhigh
    simp [h.acc_low_bits (i := 8 - 1 - i) (by omega)]

/-- The pad symbol, from the carry bits as bits of the stream (R94). -/
theorem EncSession.Legal.encPadSymbol_eq {e : EncSession} (h : e.Legal) :
    encPadSymbol e = if 0 < e.pending.length then
      [memReadFwd (BitVec.ofNat 5 (bitsValue (e.pending ++ List.replicate (5 - e.pending.length) false)))] else [] := by
  rw [← h.bitsMsbFirst_padGroup, bitsValue_symbol, encPadSymbol, h.toInt_off, e.pending_length]
  simp

theorem encMarker_length (m : Bool) : (encMarker m).length = if m then 1 else 0 := by
  cases m <;> rfl

/-- R94 of a state, from any carry bits: the commands complete, and cut the carry bits and the bytes' bits into groups. -/
theorem runCommands_cutsIntoGroups {cmds : List Instr} {s : State} (hs : s.enc.Legal)
    (hflush : ∀ p, Instr.encFlush p ∉ cmds) :
    ∃ t, runCommands cmds s = .next t ∧ t.enc.Legal ∧
      t.enc.pending = partialGroup (s.enc.pending ++ byteStream (bytesGiven cmds)) ∧
      charsResult s t ++ t.enc.out = s.enc.out ++ wholeGroups (s.enc.pending ++ byteStream (bytesGiven cmds)) := by
  obtain ⟨hlegal, hpending, hout⟩ := cutsIntoGroups hflush hs s.dec
  refine ⟨_, runCommands_eq cmds s, hlegal, hpending, ?_⟩
  rwa [charsResult, newResponses, List.drop_left]

/-- Settles O18: with no carry bits the commands cut the bytes' bitstream; the flush pads what is left of it. -/
theorem encoderOutputIsTheByteStreamInGroups : Obligations.EncoderOutputIsTheByteStreamInGroups := by
  unfold Obligations.EncoderOutputIsTheByteStreamInGroups
  intro cmds m s hs ho hflush x n S c
  obtain ⟨t, hrun, hlegal, hpending, hout⟩ := runCommands_cutsIntoGroups hs.1 hflush
  rw [EncSession.pending_of_off_zero ho, List.nil_append] at hpending hout
  have hlen : S.length = 8 * n := byteStream_length x
  have hcarry : carryCount t.enc.off = c := by
    rw [← t.enc.pending_length, hpending, partialGroup_length, hlen]
  have hrest : t.enc.pending = S.drop (8 * n - c) := by
    rw [hpending, partialGroup, hlen]
    congr 1
    omega
  have hpad : encPadSymbol t.enc = if 0 < c then
      [memReadFwd (BitVec.ofNat 5 (bitsValue (S.drop (8 * n - c) ++ List.replicate (5 - c) false)))] else [] := by
    rw [hlegal.encPadSymbol_eq, t.enc.pending_length, hcarry, hrest]
  refine ⟨t, _, hrun, ?_, hcarry ▸ hlegal.off_eq, ?_, exec_encFlush_of_out hlegal rfl, ?_, ?_⟩
  · rw [hout, wholeGroups, hlen]
  · rw [← hrest, ← hcarry]
    rfl
  · show t.enc.out ++ (encPadSymbol t.enc ++ encMarker m) = _
    rw [hpad, List.append_assoc]
    rfl
  · show (charsResult s t ++ (t.enc.out ++ (encPadSymbol t.enc ++ encMarker m))).length = _
    rw [← List.append_assoc, hout, hpad, ← List.append_assoc, List.length_append, List.length_append, List.length_append, wholeGroups_length, hlen,
      encMarker_length, apply_ite List.length, List.length_singleton, List.length_nil]
    have hceil : 8 * n / 5 + (if 0 < c then 1 else 0) = (8 * n + 4) / 5 := by split <;> omega
    omega

/-! ### The carry table, and five bytes -/

theorem encFlush_not_mem_bytesCommands (x : List Byte) (p : Bool) : Instr.encFlush p ∉ bytesCommands x := by
  simp [bytesCommands]

theorem bytesGiven_bytesCommands (x : List Byte) : bytesGiven (bytesCommands x) = x := by
  simp [bytesGiven, bytesCommands, List.filterMap_map]

theorem drained_bytesCommands (x : List Byte) (e : EncSession) (d : DecSession) : drained (bytesCommands x) e d = [] := by
  induction x generalizing e d with
  | nil => rfl
  | cons b x ih => exact ih _ _

/-- Settles O13: the five rows; and five bytes are 40 bits, which are cut into eight groups and leave none. -/
theorem encByteFollowsTheCarryTable : Obligations.EncByteFollowsTheCarryTable := by
  unfold Obligations.EncByteFollowsTheCarryTable
  constructor
  · rintro b ⟨⟨off, acc, out⟩, dec, input, responses⟩ hs
    refine ⟨?_, ?_, ?_, ?_, ?_⟩ <;> rintro rfl
    · exact exec_encByte_of_encPack hs.1 (encPack_carry0 b acc out)
    · exact exec_encByte_of_encPack hs.1 (encPack_carry1 b acc out)
    · exact exec_encByte_of_encPack hs.1 (encPack_carry2 b acc out)
    · exact exec_encByte_of_encPack hs.1 (encPack_carry3 b acc out)
    · exact exec_encByte_of_encPack hs.1 (encPack_carry4 b acc out)
  · intro x s hs ho hx
    obtain ⟨hlegal, hpending, hout⟩ := cutsIntoGroups (encFlush_not_mem_bytesCommands x) hs.1 s.dec
    rw [EncSession.pending_of_off_zero ho, List.nil_append, bytesGiven_bytesCommands] at hpending hout
    rw [drained_bytesCommands, List.nil_append] at hout
    have hcarry : carryCount (encRun (bytesCommands x) s.enc).off = 0 := by
      rw [← EncSession.pending_length, hpending, partialGroup_length, byteStream_length, hx]
    refine ⟨_, _, runCommands_eq _ s, hout, ?_, ?_, ?_⟩
    · rw [wholeGroups_length, byteStream_length, hx]
    · exact hlegal.off_eq.trans (by rw [hcarry]; rfl)
    · exact hlegal.acc_of_no_carry hcarry

/-! ### The sequential loop (`41_encoder.md` section 3) -/

/-- The word `W` of R90: the carry bits, then the byte. -/
def encWord (b : Byte) (e : EncSession) : Nat := joinBits (topBits e.acc (carryCount e.off)) 8 b.toNat

section
variable {b : Byte} {e : EncSession}

theorem encPack_eq_of_encWord (b : Byte) (e : EncSession) :
    encPack b e =
      { off := BitVec.ofInt 4 (-(((8 + carryCount e.off) % 5 : Nat) : Int))
        acc := leftAlign (encWord b e) ((8 + carryCount e.off) % 5)
        out := e.out ++ (encGroups (encWord b e) (8 + carryCount e.off)).map memReadFwd } := rfl

theorem encWord_testBit_byte {p : Nat} (hp : p < 8) : (encWord b e).testBit p = b.getLsbD p := by
  rw [encWord, joinBits_testBit, if_pos hp]

theorem encWord_testBit_carry {p : Nat} (hp : 8 ≤ p) :
    (encWord b e).testBit p = e.acc.getLsbD (8 - carryCount e.off + (p - 8)) := by
  rw [encWord, joinBits_testBit, if_neg (Nat.not_lt.mpr hp), topBits_testBit]

/-! What one turn gathers: the carry and the top of the byte, or the byte without the bits already used. -/

theorem seqGather_testBit_of_neg {x : SeqWork} (h : x.off < 0) (hacc : x.acc = e.acc.toNat) (p : Nat) :
    (seqGather b x).testBit p = (e.acc.getLsbD p || b.getLsbD ((-x.off).toNat + p)) := by
  rw [seqGather, if_pos h, hacc, Nat.testBit_or, Nat.testBit_shiftRight, BitVec.testBit_toNat, BitVec.testBit_toNat]

theorem testBit_mask_F8 : ∀ p < 8, (0xF8 : Nat).testBit p = decide (3 ≤ p) := by decide

theorem seqGather_testBit_of_nonneg {x : SeqWork} {k p : Nat} (h : x.off = k) (hp : p < 8) :
    (seqGather b x).testBit p = (decide (k ≤ p) && b.getLsbD (p - k) && decide (3 ≤ p)) := by
  rw [seqGather, if_neg (by omega), h, Int.toNat_natCast, Nat.testBit_and, Nat.testBit_shiftLeft, BitVec.testBit_toNat,
    testBit_mask_F8 p hp]

/-- The working copies after a turn that emits a symbol. -/
def seqEmit (b : Byte) (x : SeqWork) : SeqWork :=
  { off := x.off + 5, acc := seqGather b x,
    emitted := x.emitted ++ [memReadFwd (BitVec.ofNat 5 (seqGather b x >>> 3))] }

/-- The working copies at the start of turn `j`, after `j` symbols: `5 * j` of the `8 + c` bits are used. -/
structure SeqWork.AtTurn (x : SeqWork) (b : Byte) (e : EncSession) (j : Nat) : Prop where
  off : x.off = 5 * (j : Int) - carryCount e.off
  acc : x.off < 0 → x.acc = e.acc.toNat
  emitted : x.emitted = ((List.range j).map (groupOf (encWord b e) (8 + carryCount e.off))).map memReadFwd

theorem EncSession.Legal.atTurn_zero (h : e.Legal) (b : Byte) :
    SeqWork.AtTurn { off := e.off.toInt, acc := e.acc.toNat, emitted := [] } b e 0 :=
  ⟨by simp [h.toInt_off], fun _ => rfl, rfl⟩

variable {x : SeqWork} {j : Nat}

/-- The five bits at the top of what turn `j` gathers are group `j` of the word. -/
theorem SeqWork.AtTurn.group_eq (hx : x.AtTurn b e j) (h : e.Legal) (hle : x.off ≤ 3) :
    BitVec.ofNat 5 (seqGather b x >>> 3) = groupOf (encWord b e) (8 + carryCount e.off) j := by
  have hc := h.carryCount_lt
  have hoff := hx.off
  apply BitVec.eq_of_getLsbD_eq
  intro i hi
  rw [BitVec.getLsbD_ofNat, Nat.testBit_shiftRight, groupOf_getLsbD _ _ _ hi, decide_eq_true hi, Bool.true_and]
  by_cases hneg : x.off < 0
  · obtain rfl : j = 0 := by omega
    have hused : (-x.off).toNat = carryCount e.off := by omega
    rw [seqGather_testBit_of_neg hneg (hx.acc hneg), hused]
    by_cases hbyte : 3 + carryCount e.off + i < 8
    · have hpos : 8 + carryCount e.off - 5 * (0 + 1) + i = carryCount e.off + (3 + i) := by omega
      rw [hpos, encWord_testBit_byte (by omega), h.acc_low_bits (by omega), Bool.false_or]
    · have hpos : 8 - carryCount e.off + (8 + carryCount e.off - 5 * (0 + 1) + i - 8) = 3 + i := by omega
      rw [encWord_testBit_carry (by omega), hpos, BitVec.getLsbD_of_ge b _ (by omega), Bool.or_false]
  · obtain ⟨k, hk⟩ : ∃ k : Nat, x.off = k := ⟨x.off.toNat, by omega⟩
    have hpos : 8 + carryCount e.off - 5 * (j + 1) + i = 3 + i - k := by omega
    rw [seqGather_testBit_of_nonneg hk (by omega), hpos, encWord_testBit_byte (by omega),
      decide_eq_true (show k ≤ 3 + i by omega), decide_eq_true (show 3 ≤ 3 + i by omega), Bool.true_and, Bool.and_true]

/-- What the last turn gathers is the rest of the byte, at the top. -/
theorem seqGather_eq_leftAlign {r : Nat} (hr : r < 5) (hoff : x.off = ((8 - r : Nat) : Int)) :
    BitVec.ofNat 8 (seqGather b x &&& 0xFF) = leftAlign (encWord b e) r := by
  apply BitVec.eq_of_getLsbD_eq
  intro i hi
  have hall : (0xFF : Nat) = 2 ^ 8 - 1 := rfl
  rw [BitVec.getLsbD_ofNat, hall, Nat.testBit_and, Nat.testBit_two_pow_sub_one, seqGather_testBit_of_nonneg hoff hi,
    leftAlign_getLsbD _ _ hi]
  by_cases hk : 8 - r ≤ i
  · rw [encWord_testBit_byte (by omega)]
    simp [hi, hk, show 3 ≤ i by omega, show i - (8 - r) < r by omega]
  · simp [hk]

theorem seqLoop_exit {fuel : Nat} (h : 3 < x.off) :
    seqLoop b (fuel + 1) x = { x with off := x.off - 8, acc := seqGather b x } := if_pos h

theorem seqLoop_emit {fuel : Nat} (h : ¬ 3 < x.off) :
    seqLoop b (fuel + 1) x = seqLoop b fuel (seqEmit b x) := if_neg h

/-- The turn after one that emits: the offset is positive from there on, so the carry is not read again. -/
theorem SeqWork.AtTurn.next (hx : x.AtTurn b e j) (h : e.Legal) (hle : x.off ≤ 3) :
    (seqEmit b x).AtTurn b e (j + 1) := by
  have hc := h.carryCount_lt
  have hoff := hx.off
  refine ⟨?_, fun hneg => ?_, ?_⟩
  · show x.off + 5 = _
    omega
  · have : x.off + 5 < 0 := hneg
    omega
  · rw [seqEmit, hx.emitted, hx.group_eq h hle, List.range_succ, List.map_append, List.map_append]
    rfl

/-- The loop from turn `j`, by induction on the turns allowed: it ends at the turn that finds no whole group left, with the rest
that R90 keeps. -/
theorem SeqWork.AtTurn.seqLoop_eq (hx : x.AtTurn b e j) (h : e.Legal) {fuel : Nat} (hj : j ≤ (8 + carryCount e.off) / 5)
    (hfuel : (8 + carryCount e.off) / 5 < j + fuel) :
    (seqLoop b fuel x).off = -(((8 + carryCount e.off) % 5 : Nat) : Int) ∧
      BitVec.ofNat 8 ((seqLoop b fuel x).acc &&& 0xFF) = leftAlign (encWord b e) ((8 + carryCount e.off) % 5) ∧
      (seqLoop b fuel x).emitted = (encGroups (encWord b e) (8 + carryCount e.off)).map memReadFwd := by
  induction fuel generalizing x j with
  | zero => omega
  | succ fuel ih =>
    have hoff := hx.off
    by_cases hexit : 3 < x.off
    · obtain rfl : j = (8 + carryCount e.off) / 5 := by omega
      rw [seqLoop_exit hexit]
      refine ⟨?_, seqGather_eq_leftAlign (Nat.mod_lt _ (by decide)) (by omega), hx.emitted⟩
      show x.off - 8 = _
      omega
    · rw [seqLoop_emit hexit]
      exact ih (hx.next h (by omega)) (by omega) (by omega)

theorem encSequential_eq_encPack (h : e.Legal) (b : Byte) : encSequential b e = encPack b e := by
  have hc := h.carryCount_lt
  obtain ⟨hoff, hacc, hemitted⟩ := (h.atTurn_zero b).seqLoop_eq h (fuel := 4) (by omega) (by omega)
  rw [encPack_eq_of_encWord, ← hoff, ← hacc, ← hemitted]
  rfl

end

/-- Settles O17: the loop computes `encPack`. -/
theorem sequentialLoopRefinesEncByte : Obligations.SequentialLoopRefinesEncByte := by
  unfold Obligations.SequentialLoopRefinesEncByte
  intro b s hs
  exact exec_encByte_of_encPack hs.1 (encSequential_eq_encPack hs.1 b).symm

end Sys2Proof.Machine

/-!
DEC over whole messages (`42_decoder.md`). First what one command does to a legal session, for each leftover count (R110 to R113);
then the recognised characters as a bitstream that the commands cut from the front into bytes (R114).
-/

namespace Sys2Proof.Machine

/-! ### The commands -/

theorem exec_decFlush (m : Bool) (s : State) :
    exec (.decFlush m) s = .next ((s.setDec { cnt := 0, acc := 0x00, out := s.dec.out }).respond .ack) := rfl

/-- Settles O21: the meaning of `DEC.FLUSH` does not read the flag, and writes the two registers only. -/
theorem decFlushDropsTheLeftoverBits : Obligations.DecFlushDropsTheLeftoverBits :=
  fun m s _ => exec_decFlush m s

theorem decAfterChar_of_none {ch : CharCode} (h : lookup ch = none) (d : DecSession) : decAfterChar ch d = d := by
  rw [decAfterChar_eq, h]

theorem decAfterChar_of_some {ch : CharCode} {v : SymVal} (h : lookup ch = some v) {d : DecSession} (hd : d.Legal) :
    decAfterChar ch d = decUnpack v d := by
  rw [decAfterChar_eq, h]
  exact decAfterValue_of_legal hd v

theorem exec_decChar_of_none {ch : CharCode} (h : lookup ch = none) (s : State) :
    exec (.decChar ch) s = .next (s.respond .ack) := by
  show Host.Outcome.next ((s.setDec (decAfterChar ch s.dec)).respond .ack) = _
  rw [decAfterChar_of_none h]
  rfl

theorem exec_decChar_of_decUnpack {s : State} {ch : CharCode} {v : SymVal} {d : DecSession} (hs : s.dec.Legal)
    (hv : lookup ch = some v) (h : decUnpack v s.dec = d) :
    exec (.decChar ch) s = .next ((s.setDec d).respond .ack) := by
  rw [← h, ← decAfterChar_of_some hv hs]
  rfl

/-! ### The leftover bits -/

theorem DecSession.pending_length (d : DecSession) : d.pending.length = d.cnt.toNat := by
  rw [DecSession.pending, List.length_take, bitsMsbFirst_length, min_eq_left (by omega)]

theorem DecSession.pending_length_lt (d : DecSession) : d.pending.length < 8 := by
  rw [d.pending_length]
  exact d.cnt.isLt

theorem DecSession.pending_of_cnt_zero {d : DecSession} (h : d.cnt = 0) : d.pending = [] :=
  List.eq_nil_of_length_eq_zero (by rw [d.pending_length, h]; rfl)

theorem DecSession.cnt_eq (d : DecSession) : d.cnt = BitVec.ofNat 3 d.pending.length := by
  rw [d.pending_length, BitVec.ofNat_toNat, BitVec.setWidth_eq]

theorem DecSession.Legal.acc_of_cnt_zero {d : DecSession} (h : d.Legal) (hc : d.cnt = 0) : d.acc = 0x00 :=
  BitVec.eq_of_getLsbD_eq fun _ hi =>
    (getLsbD_eq_false_of_and_mask h (by rwa [hc])).trans BitVec.getLsbD_zero.symm

/-! ### A bitstream cut into bytes -/

/-- The whole bytes of a bitstream (`20_memory.md` R33). -/
def wholeBytes (T : List Bool) : List Byte := (List.range (T.length / 8)).map (streamByte T)

/-- The bits of a bitstream after its whole bytes. -/
def partialByte (T : List Bool) : List Bool := T.drop (8 * (T.length / 8))

theorem wholeBytes_length (T : List Bool) : (wholeBytes T).length = T.length / 8 := by
  simp [wholeBytes]

theorem partialByte_length (T : List Bool) : (partialByte T).length = T.length % 8 := by
  rw [partialByte, List.length_drop]
  omega

theorem wholeBytes_of_lt {T : List Bool} (h : T.length < 8) : wholeBytes T = [] := by
  simp [wholeBytes, Nat.div_eq_of_lt h]

theorem partialByte_of_lt {T : List Bool} (h : T.length < 8) : partialByte T = T := by
  simp [partialByte, Nat.div_eq_of_lt h]

theorem partialByte_append_eq_drop (T R : List Bool) : partialByte T ++ R = (T ++ R).drop (8 * (T.length / 8)) :=
  (List.drop_append_of_le_length (Nat.mul_div_le _ _)).symm

theorem append_length_div_eight (T R : List Bool) :
    (T ++ R).length / 8 = T.length / 8 + (partialByte T ++ R).length / 8 := by
  rw [List.length_append, List.length_append, partialByte_length]
  omega

/-- The bytes of a stream with more bits behind it: its own, then those that its rest and the further bits make. -/
theorem wholeBytes_append (T R : List Bool) :
    wholeBytes (T ++ R) = wholeBytes T ++ wholeBytes (partialByte T ++ R) := by
  rw [wholeBytes, append_length_div_eight, List.range_add, List.map_append, List.map_map]
  congr 1
  · refine List.map_congr_left fun j hj => streamByte_append R ?_
    have : j < T.length / 8 := List.mem_range.mp hj
    omega
  · refine List.map_congr_left fun j _ => ?_
    rw [Function.comp_apply, partialByte_append_eq_drop, streamByte_drop]

theorem partialByte_append (T R : List Bool) : partialByte (T ++ R) = partialByte (partialByte T ++ R) := by
  rw [partialByte, append_length_div_eight, Nat.mul_add, ← List.drop_drop, ← partialByte_append_eq_drop, ← partialByte]

/-! ### Commands that cut bits into bytes -/

/-- The bytes that a list of commands drains. -/
def drainedBytes (cmds : List Instr) (e : EncSession) (d : DecSession) : List Byte :=
  (answersOf cmds e d).flatMap Response.bytesPart

theorem drainedBytes_cons (i : Instr) (cmds : List Instr) (e : EncSession) (d : DecSession) :
    drainedBytes (i :: cmds) e d =
      drainedBytes [i] e d ++ drainedBytes cmds (encEffect i e) (decEffect i d) := by
  simp [drainedBytes, answersOf]

theorem drainedBytes_symRev (ch : CharCode) (e : EncSession) (d : DecSession) : drainedBytes [.symRev ch] e d = [] := by
  show (revResponse ch).bytesPart ++ [] = []
  rw [revResponse_eq]
  cases lookup ch <;> rfl

/-- What a list of commands does when it brings the bits `B`: the leftover bits followed by `B` are cut into bytes, drained or
pending, and the rest is left over. -/
structure CutsIntoBytes (cmds : List Instr) (e : EncSession) (d : DecSession) (B : List Bool) : Prop where
  legal : (decRun cmds d).Legal
  pending : (decRun cmds d).pending = partialByte (d.pending ++ B)
  out : drainedBytes cmds e d ++ (decRun cmds d).out = d.out ++ wholeBytes (d.pending ++ B)

/-- Commands that bring no bit keep the leftover bits, and drain what they take from the queue. -/
theorem CutsIntoBytes.of_no_bits {cmds : List Instr} {e : EncSession} {d : DecSession} (hlegal : (decRun cmds d).Legal)
    (hpending : (decRun cmds d).pending = d.pending) (hout : drainedBytes cmds e d ++ (decRun cmds d).out = d.out) :
    CutsIntoBytes cmds e d [] where
  legal := hlegal
  pending := by rw [List.append_nil, partialByte_of_lt d.pending_length_lt, hpending]
  out := by rw [List.append_nil, wholeBytes_of_lt d.pending_length_lt, List.append_nil, hout]

theorem CutsIntoBytes.cons {i : Instr} {cmds : List Instr} {e : EncSession} {d : DecSession} {B C : List Bool}
    (hi : CutsIntoBytes [i] e d B) (hcmds : CutsIntoBytes cmds (encEffect i e) (decEffect i d) C) :
    CutsIntoBytes (i :: cmds) e d (B ++ C) where
  legal := hcmds.legal
  pending := by
    have hrest : (decEffect i d).pending = partialByte (d.pending ++ B) := hi.pending
    rw [← List.append_assoc, partialByte_append, ← hrest]
    exact hcmds.pending
  out := by
    have hrest : (decEffect i d).pending = partialByte (d.pending ++ B) := hi.pending
    have hbytes : drainedBytes [i] e d ++ (decEffect i d).out = d.out ++ wholeBytes (d.pending ++ B) := hi.out
    rw [drainedBytes_cons, ← List.append_assoc, wholeBytes_append, ← hrest, ← List.append_assoc d.out, ← hbytes,
      List.append_assoc, List.append_assoc, ← hcmds.out]
    rfl

/-- `DEC.CHAR` brings the five bits of a recognised character, and none of a noise character. -/
theorem cutsIntoBytes_decChar (ch : CharCode) (e : EncSession) {d : DecSession} (hd : d.Legal) :
    CutsIntoBytes [.decChar ch] e d (symbolStream (recognised [ch])) := by
  cases hv : lookup ch with
  | none =>
    have hbits : recognised [ch] = [] := by simp [recognised, hv]
    have hkept : decRun [.decChar ch] d = d := decAfterChar_of_none hv d
    rw [hbits]
    exact .of_no_bits (by rwa [hkept]) (by rw [hkept]) (by rw [hkept]; rfl)
  | some v =>
    have hbits : symbolStream (recognised [ch]) = bitsMsbFirst v := by simp [recognised, hv, symbolStream]
    have hunpack : decRun [.decChar ch] d = decUnpack v d := decAfterChar_of_some hv hd
    obtain ⟨hlegal, hpending, hout⟩ := decUnpack_stream d v
    have hlen : d.pending.length + 5 = (d.pending ++ bitsMsbFirst v).length := by simp
    rw [hlen] at hpending hout
    rw [hbits]
    exact ⟨by rwa [hunpack], by rwa [hunpack], by rwa [hunpack]⟩

theorem cutsIntoBytes_singleton {i : Instr} (hflush : ∀ p, i ≠ .decFlush p) (e : EncSession) {d : DecSession}
    (hd : d.Legal) : CutsIntoBytes [i] e d (symbolStream (recognised (charsGiven [i]))) := by
  cases i with
  | decChar ch => exact cutsIntoBytes_decChar ch e hd
  | decFlush p => exact absurd rfl (hflush p)
  | decDrain =>
    have hout : drainedBytes [.decDrain] e d = d.out := List.append_nil _
    exact .of_no_bits hd.emptied rfl (by rw [hout]; exact List.append_nil _)
  | encByte | encFlush | encDrain | symFwd => exact .of_no_bits hd rfl rfl
  | symRev ch => exact .of_no_bits hd rfl (by rw [drainedBytes_symRev]; rfl)

/-- R114's induction, over the commands. -/
theorem cutsIntoBytes {cmds : List Instr} (hflush : ∀ p, Instr.decFlush p ∉ cmds) (e : EncSession) {d : DecSession}
    (hd : d.Legal) : CutsIntoBytes cmds e d (symbolStream (recognised (charsGiven cmds))) := by
  induction cmds generalizing e d with
  | nil => exact .of_no_bits hd rfl rfl
  | cons i cmds ih =>
    have hfirst : ∀ p, i ≠ .decFlush p := fun p hp => hflush p (hp ▸ List.mem_cons_self)
    have hrest : ∀ p, Instr.decFlush p ∉ cmds := fun p hp => hflush p (List.mem_cons_of_mem _ hp)
    have hchars : charsGiven (i :: cmds) = charsGiven [i] ++ charsGiven cmds := List.filterMap_append (l := [i])
    have hvalues : recognised (charsGiven (i :: cmds)) = recognised (charsGiven [i]) ++ recognised (charsGiven cmds) := by
      rw [hchars, recognised, List.filterMap_append]
      rfl
    rw [hvalues, symbolStream_append]
    exact (cutsIntoBytes_singleton hfirst e hd).cons (ih hrest (encEffect i e) (hd.effect i))

/-! ### A message -/

/-- R114 of a state, from any leftover bits: the commands complete, and cut the leftover bits and the values' bits into bytes. -/
theorem runCommands_cutsIntoBytes {cmds : List Instr} {s : State} (hs : s.dec.Legal)
    (hflush : ∀ p, Instr.decFlush p ∉ cmds) :
    ∃ t, runCommands cmds s = .next t ∧ t.dec.Legal ∧
      t.dec.pending = partialByte (s.dec.pending ++ symbolStream (recognised (charsGiven cmds))) ∧
      bytesResult s t ++ t.dec.out =
        s.dec.out ++ wholeBytes (s.dec.pending ++ symbolStream (recognised (charsGiven cmds))) := by
  obtain ⟨hlegal, hpending, hout⟩ := cutsIntoBytes hflush s.enc hs
  refine ⟨_, runCommands_eq cmds s, hlegal, hpending, ?_⟩
  rwa [bytesResult, newResponses, List.drop_left]

/-- Settles O22: with no leftover bits the commands cut the values' bitstream; the flush drops what is left of it. -/
theorem decoderOutputIsTheSymbolStreamInBytes : Obligations.DecoderOutputIsTheSymbolStreamInBytes := by
  unfold Obligations.DecoderOutputIsTheSymbolStreamInBytes
  intro cmds m s hs hc hflush vs q T k
  obtain ⟨t, hrun, -, hpending, hout⟩ := runCommands_cutsIntoBytes hs.2 hflush
  rw [DecSession.pending_of_cnt_zero hc, List.nil_append] at hpending hout
  have hlen : T.length = 5 * q := symbolStream_length vs
  have hleft : t.dec.pending.length = k := by
    rw [hpending, partialByte_length, hlen]
  have hrest : t.dec.pending = T.drop (5 * q - k) := by
    rw [hpending, partialByte, hlen]
    congr 1
    omega
  refine ⟨t, _, hrun, ?_, hleft ▸ t.dec.cnt_eq, ?_, exec_decFlush m t, rfl, rfl, rfl, ?_⟩
  · rw [hout, wholeBytes, hlen]
  · rw [← hrest, ← hleft, t.dec.pending_length]
    rfl
  · show (bytesResult s t ++ t.dec.out).length = _
    rw [hout, List.length_append, wholeBytes_length, hlen]

/-! ### Characters alone -/

theorem decFlush_not_mem_charsCommands (y : List CharCode) (p : Bool) : Instr.decFlush p ∉ charsCommands y := by
  simp [charsCommands]

theorem charsGiven_charsCommands (y : List CharCode) : charsGiven (charsCommands y) = y := by
  simp [charsGiven, charsCommands, List.filterMap_map]

theorem drainedBytes_charsCommands (y : List CharCode) (e : EncSession) (d : DecSession) :
    drainedBytes (charsCommands y) e d = [] := by
  induction y generalizing e d with
  | nil => rfl
  | cons ch y ih => exact ih _ _

theorem recognised_length {y : List CharCode} (h : ∀ ch ∈ y, (lookup ch).isSome) : (recognised y).length = y.length :=
  List.filterMap_length_eq_length.mpr h

/-- `q` recognised characters, with no leftover bits before: `5q div 8` bytes are appended and `5q mod 8` bits are left over. -/
theorem runCommands_charsCommands {y : List CharCode} {s : State} (hs : s.dec.Legal) (hc : s.dec.cnt = 0)
    (hy : ∀ ch ∈ y, (lookup ch).isSome) :
    ∃ t bs, runCommands (charsCommands y) s = .next t ∧ t.dec.Legal ∧ t.dec.out = s.dec.out ++ bs ∧
      bs.length = 5 * y.length / 8 ∧ t.dec.cnt = BitVec.ofNat 3 (5 * y.length % 8) := by
  obtain ⟨hlegal, hpending, hout⟩ := cutsIntoBytes (decFlush_not_mem_charsCommands y) s.enc hs
  rw [DecSession.pending_of_cnt_zero hc, List.nil_append, charsGiven_charsCommands] at hpending hout
  rw [drainedBytes_charsCommands, List.nil_append] at hout
  have hlen : (symbolStream (recognised y)).length = 5 * y.length := by
    rw [symbolStream_length, recognised_length hy]
  refine ⟨_, _, runCommands_eq _ s, hlegal, hout, ?_, ?_⟩
  · rw [wholeBytes_length, hlen]
  · rw [DecSession.cnt_eq, hpending, partialByte_length, hlen]

/-- `5k` recognised characters are `25k` bits, so `k` of them are left over: every leftover count is reached from reset (R113). -/
theorem leftoverCount_reachable (k : BitVec 3) :
    ∃ y t, runCommands (charsCommands y) State.reset = .next t ∧ t.dec.cnt = k := by
  have hy : ∀ ch ∈ List.replicate (5 * k.toNat) (memReadFwd 0), (lookup ch).isSome := by
    intro ch hch
    rw [List.eq_of_mem_replicate hch, lookup_memReadFwd]
    rfl
  obtain ⟨t, -, hrun, -, -, -, hcnt⟩ := runCommands_charsCommands (s := State.reset) DecSession.reset_legal rfl hy
  refine ⟨_, t, hrun, hcnt.trans ?_⟩
  rw [List.length_replicate]
  bv_omega

/-- Settles O20: noise and the eight rows; eight recognised characters are 40 bits, which are five bytes and leave none; and the
counts by the characters that reach them. -/
theorem decCharFollowsTheLeftoverTable : Obligations.DecCharFollowsTheLeftoverTable := by
  unfold Obligations.DecCharFollowsTheLeftoverTable
  refine ⟨?_, ?_, leftoverCount_reachable⟩
  · rintro ch ⟨enc, ⟨cnt, acc, out⟩, input, responses⟩ hs
    refine ⟨fun hnoise => exec_decChar_of_none hnoise _, fun v hv => ?_⟩
    refine ⟨?_, ?_, ?_, ?_, ?_, ?_, ?_, ?_⟩ <;> rintro rfl
    · exact exec_decChar_of_decUnpack hs.2 hv (decUnpack_left0 v acc out)
    · exact exec_decChar_of_decUnpack hs.2 hv (decUnpack_left1 v acc out)
    · exact exec_decChar_of_decUnpack hs.2 hv (decUnpack_left2 v acc out)
    · exact exec_decChar_of_decUnpack hs.2 hv (decUnpack_left3 v acc out)
    · exact exec_decChar_of_decUnpack hs.2 hv (decUnpack_left4 v acc out)
    · exact exec_decChar_of_decUnpack hs.2 hv (decUnpack_left5 v acc out)
    · exact exec_decChar_of_decUnpack hs.2 hv (decUnpack_left6 v acc out)
    · exact exec_decChar_of_decUnpack hs.2 hv (decUnpack_left7 v acc out)
  · intro y s hs hc hlen hy
    obtain ⟨t, bs, hrun, hlegal, hout, hbs, hcnt⟩ := runCommands_charsCommands hs.2 hc hy
    rw [hlen] at hbs hcnt
    exact ⟨t, bs, hrun, hout, hbs, hcnt, hlegal.acc_of_cnt_zero hcnt⟩

end Sys2Proof.Machine

/-!
The composites and the laws of whole messages (`43_composites_and_laws.md`): what a list of commands leaves and returns as a state
of its own, that each session sees its own commands alone (R147), and what a finish leaves (R131, R133).
-/

namespace Sys2Proof.Machine

/-! ### The state after a list of commands -/

/-- The state that a list of commands leaves (`runCommands_eq`). -/
def State.afterCommands (s : State) (cmds : List Instr) : State :=
  { enc := encRun cmds s.enc, dec := decRun cmds s.dec, input := s.input,
    responses := s.responses ++ answersOf cmds s.enc s.dec }

theorem runCommands_eq_afterCommands (cmds : List Instr) (s : State) :
    runCommands cmds s = .next (s.afterCommands cmds) := runCommands_eq cmds s

section
variable (s : State) (cmds : List Instr)

@[simp] theorem State.afterCommands_enc : (s.afterCommands cmds).enc = encRun cmds s.enc := rfl
@[simp] theorem State.afterCommands_dec : (s.afterCommands cmds).dec = decRun cmds s.dec := rfl

@[simp] theorem newResponses_afterCommands : newResponses s (s.afterCommands cmds) = answersOf cmds s.enc s.dec :=
  List.drop_left

@[simp] theorem charsResult_afterCommands : charsResult s (s.afterCommands cmds) = drained cmds s.enc s.dec := by
  rw [charsResult, newResponses_afterCommands, drained]

@[simp] theorem bytesResult_afterCommands : bytesResult s (s.afterCommands cmds) = drainedBytes cmds s.enc s.dec := by
  rw [bytesResult, newResponses_afterCommands, drainedBytes]

end

theorem drained_append (xs ys : List Instr) (e : EncSession) (d : DecSession) :
    drained (xs ++ ys) e d = drained xs e d ++ drained ys (encRun xs e) (decRun xs d) := by
  rw [drained, answersOf_append, List.flatMap_append, drained, drained]

theorem drainedBytes_append (xs ys : List Instr) (e : EncSession) (d : DecSession) :
    drainedBytes (xs ++ ys) e d = drainedBytes xs e d ++ drainedBytes ys (encRun xs e) (decRun xs d) := by
  rw [drainedBytes, answersOf_append, List.flatMap_append, drainedBytes, drainedBytes]

/-! ### Each session sees its own commands alone -/

theorem encRun_filter_enc (cmds : List Instr) (e : EncSession) :
    encRun (cmds.filter fun i => i.blockUnit == .enc) e = encRun cmds e := by
  induction cmds generalizing e with
  | nil => rfl
  | cons i cmds ih =>
    by_cases h : i.blockUnit = .enc
    · rw [List.filter_cons_of_pos (by simpa using h)]
      exact ih (encEffect i e)
    · have hkept : encRun (i :: cmds) e = encRun cmds e := congrArg (encRun cmds) (encEffect_of_other_unit h e)
      rw [List.filter_cons_of_neg (by simpa using h), ih, hkept]

theorem decRun_filter_dec (cmds : List Instr) (d : DecSession) :
    decRun (cmds.filter fun i => i.blockUnit == .dec) d = decRun cmds d := by
  induction cmds generalizing d with
  | nil => rfl
  | cons i cmds ih =>
    by_cases h : i.blockUnit = .dec
    · rw [List.filter_cons_of_pos (by simpa using h)]
      exact ih (decEffect i d)
    · have hkept : decRun (i :: cmds) d = decRun cmds d := congrArg (decRun cmds) (decEffect_of_other_unit h d)
      rw [List.filter_cons_of_neg (by simpa using h), ih, hkept]

/-- The drained characters are those of the ENC commands alone, whatever the decoder session. -/
theorem drained_filter_enc (cmds : List Instr) (e : EncSession) (d d' : DecSession) :
    drained (cmds.filter fun i => i.blockUnit == .enc) e d' = drained cmds e d := by
  induction cmds generalizing e d d' with
  | nil => rfl
  | cons i cmds ih =>
    by_cases h : i.blockUnit = .enc
    · have hanswer : answerOf i e.out d'.out = answerOf i e.out d.out :=
        answerOf_congr (fun _ => rfl) (by simp [h])
      rw [List.filter_cons_of_pos (by simpa using h), drained_cons, drained_cons, hanswer, ih]
    · rw [List.filter_cons_of_neg (by simpa using h), drained_cons, charsPart_answerOf_of_other_unit h,
        encEffect_of_other_unit h, List.nil_append, ih]

/-- Only `DEC.DRAIN` answers bytes of DEC.OUT. -/
theorem drainedBytes_singleton_of_other_unit {i : Instr} (h : i.blockUnit ≠ .dec) (e : EncSession) (d : DecSession) :
    drainedBytes [i] e d = [] := by
  cases i with
  | decChar | decFlush | decDrain => exact absurd rfl h
  | encByte | encFlush | encDrain | symFwd => rfl
  | symRev ch => exact drainedBytes_symRev ch e d

/-- The drained bytes are those of the DEC commands alone, whatever the encoder session. -/
theorem drainedBytes_filter_dec (cmds : List Instr) (e e' : EncSession) (d : DecSession) :
    drainedBytes (cmds.filter fun i => i.blockUnit == .dec) e' d = drainedBytes cmds e d := by
  induction cmds generalizing e e' d with
  | nil => rfl
  | cons i cmds ih =>
    rw [drainedBytes_cons i cmds]
    by_cases h : i.blockUnit = .dec
    · have hanswer : answerOf i e'.out d.out = answerOf i e.out d.out :=
        answerOf_congr (by simp [h]) (fun _ => rfl)
      have hfirst : drainedBytes [i] e' d = drainedBytes [i] e d := congrArg (fun r => List.flatMap _ [r]) hanswer
      rw [List.filter_cons_of_pos (by simpa using h), drainedBytes_cons, hfirst, ih]
    · rw [List.filter_cons_of_neg (by simpa using h), drainedBytes_singleton_of_other_unit h,
        decEffect_of_other_unit h, List.nil_append, ih]

theorem drained_eq_for_any_decoder (cmds : List Instr) (e : EncSession) (d d' : DecSession) :
    drained cmds e d = drained cmds e d' :=
  (drained_filter_enc cmds e d d').symm.trans (drained_filter_enc cmds e d' d')

theorem drainedBytes_eq_for_any_encoder (cmds : List Instr) (e e' : EncSession) (d : DecSession) :
    drainedBytes cmds e d = drainedBytes cmds e' d :=
  (drainedBytes_filter_dec cmds e e' d).symm.trans (drainedBytes_filter_dec cmds e' e' d)

theorem encRun_of_other_units {cmds : List Instr} (h : ∀ i ∈ cmds, i.blockUnit ≠ .enc) (e : EncSession) :
    encRun cmds e = e := by
  rw [← encRun_filter_enc, List.filter_eq_nil_iff.mpr (by simpa using h)]
  rfl

theorem decRun_of_other_units {cmds : List Instr} (h : ∀ i ∈ cmds, i.blockUnit ≠ .dec) (d : DecSession) :
    decRun cmds d = d := by
  rw [← decRun_filter_dec, List.filter_eq_nil_iff.mpr (by simpa using h)]
  rfl

/-! ### A finish -/

section
variable (m : Bool)

theorem answersOf_encFinish {e : EncSession} (he : e.Legal) (d : DecSession) :
    answersOf (Pseudo.encFinish m).expand e d = [.ack, .chars (e.out ++ (encPadSymbol e ++ encMarker m))] := by
  show [Response.ack, .chars (encAfterFlush m e).out] = _
  rw [encAfterFlush_of_legal he]

theorem drained_encFinish {e : EncSession} (he : e.Legal) (d : DecSession) :
    drained (Pseudo.encFinish m).expand e d = e.out ++ (encPadSymbol e ++ encMarker m) := by
  rw [drained, answersOf_encFinish m he]
  exact List.append_nil _

theorem encRun_encFinish {e : EncSession} (he : e.Legal) : encRun (Pseudo.encFinish m).expand e = EncSession.reset := by
  show (encAfterFlush m e).emptied = _
  rw [encAfterFlush_of_legal he]
  rfl

theorem decRun_encFinish (d : DecSession) : decRun (Pseudo.encFinish m).expand d = d := rfl

theorem answersOf_decFinish (e : EncSession) (d : DecSession) :
    answersOf (Pseudo.decFinish m).expand e d = [.ack, .bytes d.out] := rfl

theorem drainedBytes_decFinish (e : EncSession) (d : DecSession) :
    drainedBytes (Pseudo.decFinish m).expand e d = d.out := List.append_nil _

theorem decRun_decFinish (d : DecSession) : decRun (Pseudo.decFinish m).expand d = DecSession.reset := rfl

theorem encRun_decFinish (e : EncSession) : encRun (Pseudo.decFinish m).expand e = e := rfl

end

/-- Settles O31: what each finish answers and leaves; `DEC.FLUSH` does not read its flag. -/
theorem finishReturnsTheSessionToReset : Obligations.FinishReturnsTheSessionToReset := by
  unfold Obligations.FinishReturnsTheSessionToReset
  intro m s hs
  refine ⟨⟨_, s.enc.out ++ (encPadSymbol s.enc ++ encMarker m), runCommands_eq_afterCommands _ s, encRun_encFinish m hs.1,
    decRun_encFinish m s.dec, ?_, List.prefix_append _ _⟩, ⟨_, runCommands_eq_afterCommands _ s, decRun_decFinish m s.dec,
    encRun_decFinish m s.enc, ?_⟩, rfl⟩
  · rw [newResponses_afterCommands, answersOf_encFinish m hs.1]
  · rw [newResponses_afterCommands, answersOf_decFinish]

/-- Settles O29: each session's end and results are those of its own commands alone, and do not depend on the other session; a
finish leaves the session reset. -/
theorem sessionsAreIndependentAndReusable : Obligations.SessionsAreIndependentAndReusable := by
  unfold Obligations.SessionsAreIndependentAndReusable
  refine ⟨fun cmds s _ => ?_, fun m x s hs => ?_, fun m y s _ => ?_⟩
  · refine ⟨_, _, _, runCommands_eq_afterCommands _ s, runCommands_eq_afterCommands _ s, runCommands_eq_afterCommands _ s,
      (encRun_filter_enc cmds s.enc).symm, ?_, (decRun_filter_dec cmds s.dec).symm, ?_⟩
    · rw [charsResult_afterCommands, charsResult_afterCommands, drained_filter_enc]
    · rw [bytesResult_afterCommands, bytesResult_afterCommands, drainedBytes_filter_dec]
  · refine ⟨_, _, _, runCommands_eq_afterCommands _ s, runCommands_eq_afterCommands _ _,
      runCommands_eq_afterCommands _ _, ?_⟩
    rw [charsResult_afterCommands, charsResult_afterCommands]
    rw [State.afterCommands_enc, encRun_encFinish m hs.1]
    exact drained_eq_for_any_decoder _ _ _ _
  · refine ⟨_, _, _, runCommands_eq_afterCommands _ s, runCommands_eq_afterCommands _ _,
      runCommands_eq_afterCommands _ _, ?_⟩
    rw [bytesResult_afterCommands, bytesResult_afterCommands]
    rw [State.afterCommands_dec, decRun_decFinish]
    exact drainedBytes_eq_for_any_encoder _ _ _ _

end Sys2Proof.Machine

/-!
The laws of whole messages (`43_composites_and_laws.md` R134 to R146). A message's text is the whole groups of its padded bitstream,
however the bytes are cut into chunks; a text's bytes are the whole bytes of its recognised characters' bitstream, however the
characters are cut into chunks. The round trips are then about the two streams.
-/

namespace Sys2Proof.Machine

/-! ### The text of a message -/

/-- A bitstream with zeros behind it to the end of its last group (`41_encoder.md` R94). -/
def padded (S : List Bool) : List Bool := S ++ List.replicate ((5 - S.length % 5) % 5) false

/-- The text of a message: the symbols of the groups of its padded bitstream (R137). -/
def encodedText (x : List Byte) : List CharCode := wholeGroups (padded (byteStream x))

theorem wholeGroups_of_length_five {S : List Bool} (h : S.length = 5) :
    wholeGroups S = [memReadFwd (BitVec.ofNat 5 (bitsValue S))] := by
  have hall : S.take 5 = S := List.take_of_length_le h.le
  simp [wholeGroups, streamGroup, h, hall]

/-- A flush's pad symbol is what the zeros complete. -/
theorem wholeGroups_padded {e : EncSession} (he : e.Legal) {S : List Bool} (h : e.pending = partialGroup S) :
    wholeGroups (padded S) = wholeGroups S ++ encPadSymbol e := by
  have hlen : e.pending.length = S.length % 5 := by rw [h, partialGroup_length]
  rw [padded, wholeGroups_append, ← h, he.encPadSymbol_eq, hlen]
  congr 1
  by_cases hrest : S.length % 5 = 0
  · have hnil : e.pending = [] := List.eq_nil_of_length_eq_zero (hlen.trans hrest)
    simp [hnil, hrest, wholeGroups]
  · have hzeros : (5 - S.length % 5) % 5 = 5 - S.length % 5 := by omega
    rw [if_pos (Nat.pos_of_ne_zero hrest), hzeros]
    refine wholeGroups_of_length_five ?_
    rw [List.length_append, List.length_replicate, hlen]
    omega

theorem EncSession.reset_pending : EncSession.reset.pending = [] := EncSession.pending_of_off_zero rfl

/-- From reset, whatever drains and other units' commands stand among the bytes: what is drained, to the end of a finish, is the
text of the bytes given and the marker if it is asked for. -/
theorem drained_append_encFinish {cmds : List Instr} (hflush : ∀ p, Instr.encFlush p ∉ cmds) (m : Bool) (d : DecSession) :
    drained (cmds ++ (Pseudo.encFinish m).expand) EncSession.reset d = encodedText (bytesGiven cmds) ++ encMarker m := by
  obtain ⟨hlegal, hpending, hout⟩ := cutsIntoGroups hflush EncSession.reset_legal d
  rw [EncSession.reset_pending, List.nil_append] at hpending hout
  have hsymbols : drained cmds EncSession.reset d ++ (encRun cmds EncSession.reset).out =
      wholeGroups (byteStream (bytesGiven cmds)) := hout
  rw [drained_append, drained_encFinish m hlegal, ← List.append_assoc, ← List.append_assoc, hsymbols, encodedText,
    wholeGroups_padded hlegal hpending]

theorem encFlush_not_mem_encIngest (x : List Byte) (p : Bool) : Instr.encFlush p ∉ (Pseudo.encIngest x).expand := by
  simp [Pseudo.expand, bytesCommands]

theorem bytesGiven_encIngest (x : List Byte) : bytesGiven (Pseudo.encIngest x).expand = x := by
  rw [bytesGiven, Pseudo.expand, List.filterMap_append, ← bytesGiven, bytesGiven_bytesCommands]
  exact List.append_nil x

theorem drained_encode (x : List Byte) (d : DecSession) :
    drained (Pseudo.encode x).expand EncSession.reset d = encodedText x := by
  have h := drained_append_encFinish (encFlush_not_mem_encIngest x) false d
  rw [bytesGiven_encIngest] at h
  exact h.trans (List.append_nil _)

/-- The bytes and a finish, without the first drain of ENCODE. -/
theorem drained_bytes_encFinish (x : List Byte) (m : Bool) (d : DecSession) :
    drained (bytesCommands x ++ (Pseudo.encFinish m).expand) EncSession.reset d = encodedText x ++ encMarker m := by
  rw [drained_append_encFinish (encFlush_not_mem_bytesCommands x), bytesGiven_bytesCommands]

theorem charsResult_encode {s : State} (henc : s.enc = EncSession.reset) (x : List Byte) :
    charsResult s (s.afterCommands (Pseudo.encode x).expand) = encodedText x := by
  rw [charsResult_afterCommands, henc, drained_encode]

theorem charsResult_bytes_encFinish {s : State} (henc : s.enc = EncSession.reset) (x : List Byte) (m : Bool) :
    charsResult s (s.afterCommands (bytesCommands x ++ (Pseudo.encFinish m).expand)) = encodedText x ++ encMarker m := by
  rw [charsResult_afterCommands, henc, drained_bytes_encFinish]

theorem decRun_bytesCommands (x : List Byte) (d : DecSession) : decRun (bytesCommands x) d = d :=
  decRun_of_other_units (by simp [bytesCommands, Instr.blockUnit]) d

theorem decRun_encode (x : List Byte) (d : DecSession) : decRun (Pseudo.encode x).expand d = d := by
  rw [Pseudo.expand, List.append_assoc, decRun_append, decRun_bytesCommands]
  rfl

theorem dec_afterCommands_encode {s : State} (x : List Byte) : (s.afterCommands (Pseudo.encode x).expand).dec = s.dec :=
  decRun_encode x s.dec

theorem dec_afterCommands_bytes_encFinish {s : State} (x : List Byte) (m : Bool) :
    (s.afterCommands (bytesCommands x ++ (Pseudo.encFinish m).expand)).dec = s.dec := by
  rw [State.afterCommands_dec, decRun_append, decRun_bytesCommands, decRun_encFinish]

theorem bytesGiven_encIngests (chunks : List (List Byte)) :
    bytesGiven (chunks.flatMap fun x => (Pseudo.encIngest x).expand) = chunks.flatten := by
  induction chunks with
  | nil => rfl
  | cons x chunks ih =>
    rw [List.flatMap_cons, bytesGiven, List.filterMap_append, ← bytesGiven, ← bytesGiven, bytesGiven_encIngest, ih,
      List.flatten_cons]

/-- Settles O37: both lists give the encoder the same bytes, and a message's text depends on nothing else. -/
theorem encoderChunkBoundariesAreInvisible : Obligations.EncoderChunkBoundariesAreInvisible := by
  unfold Obligations.EncoderChunkBoundariesAreInvisible
  intro chunks s henc _
  have hflush : ∀ p, Instr.encFlush p ∉ chunks.flatMap fun x => (Pseudo.encIngest x).expand := fun p hp =>
    have ⟨x, _, hx⟩ := List.mem_flatMap.mp hp
    encFlush_not_mem_encIngest x p hx
  refine ⟨_, _, runCommands_eq_afterCommands _ s, runCommands_eq_afterCommands _ s, ?_⟩
  rw [charsResult_encode henc, charsResult_afterCommands, henc, drained_append_encFinish hflush, bytesGiven_encIngests]
  exact List.append_nil _

/-! ### The bytes of a text -/

/-- The bytes of a text: the whole bytes of its recognised characters' bitstream (R114). -/
def decodedBytes (y : List CharCode) : List Byte := wholeBytes (symbolStream (recognised y))

/-- Whatever drains and other units' commands stand among the characters: what is drained, to the end of a finish, is the queue and
the bytes cut from the leftover bits and the recognised characters' bits. -/
theorem drainedBytes_append_decFinish {cmds : List Instr} (hflush : ∀ p, Instr.decFlush p ∉ cmds) (m : Bool)
    (e : EncSession) {d : DecSession} (hd : d.Legal) :
    drainedBytes (cmds ++ (Pseudo.decFinish m).expand) e d =
      d.out ++ wholeBytes (d.pending ++ symbolStream (recognised (charsGiven cmds))) := by
  rw [drainedBytes_append, drainedBytes_decFinish]
  exact (cutsIntoBytes hflush e hd).out

theorem decRun_append_decFinish (cmds : List Instr) (m : Bool) (d : DecSession) :
    decRun (cmds ++ (Pseudo.decFinish m).expand) d = DecSession.reset := by
  rw [decRun_append, decRun_decFinish]

theorem DecSession.reset_pending : DecSession.reset.pending = [] := DecSession.pending_of_cnt_zero rfl

theorem decFlush_not_mem_decIngest (y : List CharCode) (p : Bool) : Instr.decFlush p ∉ (Pseudo.decIngest y).expand := by
  simp [Pseudo.expand, charsCommands]

theorem charsGiven_decIngest (y : List CharCode) : charsGiven (Pseudo.decIngest y).expand = y := by
  rw [charsGiven, Pseudo.expand, List.filterMap_append, ← charsGiven, charsGiven_charsCommands]
  exact List.append_nil y

theorem drainedBytes_decode_of_legal (y : List CharCode) (e : EncSession) {d : DecSession} (hd : d.Legal) :
    drainedBytes (Pseudo.decode y).expand e d = d.out ++ wholeBytes (d.pending ++ symbolStream (recognised y)) := by
  have h := drainedBytes_append_decFinish (decFlush_not_mem_decIngest y) false e hd
  rwa [charsGiven_decIngest] at h

theorem drainedBytes_decode (y : List CharCode) (e : EncSession) :
    drainedBytes (Pseudo.decode y).expand e DecSession.reset = decodedBytes y := by
  rw [drainedBytes_decode_of_legal y e DecSession.reset_legal, DecSession.reset_pending]
  rfl

theorem decRun_decode (y : List CharCode) (d : DecSession) : decRun (Pseudo.decode y).expand d = DecSession.reset :=
  decRun_append_decFinish (Pseudo.decIngest y).expand false d

theorem encRun_charsCommands (y : List CharCode) (e : EncSession) : encRun (charsCommands y) e = e :=
  encRun_of_other_units (by simp [charsCommands, Instr.blockUnit]) e

theorem encRun_decode (y : List CharCode) (e : EncSession) : encRun (Pseudo.decode y).expand e = e := by
  rw [Pseudo.expand, List.append_assoc, encRun_append, encRun_charsCommands]
  rfl

section
variable {s : State} (y : List CharCode)

theorem bytesResult_decode (hdec : s.dec = DecSession.reset) :
    bytesResult s (s.afterCommands (Pseudo.decode y).expand) = decodedBytes y := by
  rw [bytesResult_afterCommands, hdec, drainedBytes_decode]

theorem dec_afterCommands_decode : (s.afterCommands (Pseudo.decode y).expand).dec = DecSession.reset :=
  decRun_decode y s.dec

theorem enc_afterCommands_decode : (s.afterCommands (Pseudo.decode y).expand).enc = s.enc := encRun_decode y s.enc

end

theorem charsGiven_decIngests (chunks : List (List CharCode)) :
    charsGiven (chunks.flatMap fun y => (Pseudo.decIngest y).expand) = chunks.flatten := by
  induction chunks with
  | nil => rfl
  | cons y chunks ih =>
    rw [List.flatMap_cons, charsGiven, List.filterMap_append, ← charsGiven, ← charsGiven, charsGiven_decIngest, ih,
      List.flatten_cons]

/-- Settles O38: both lists give the decoder the same characters, and a text's bytes depend on nothing else. -/
theorem decoderChunkBoundariesAreInvisible : Obligations.DecoderChunkBoundariesAreInvisible := by
  unfold Obligations.DecoderChunkBoundariesAreInvisible
  intro chunks s hdec _
  have hflush : ∀ p, Instr.decFlush p ∉ chunks.flatMap fun y => (Pseudo.decIngest y).expand := fun p hp =>
    have ⟨y, _, hy⟩ := List.mem_flatMap.mp hp
    decFlush_not_mem_decIngest y p hy
  have hlegal : s.dec.Legal := hdec ▸ DecSession.reset_legal
  refine ⟨_, _, runCommands_eq_afterCommands _ s, runCommands_eq_afterCommands _ s, ?_⟩
  rw [bytesResult_afterCommands, bytesResult_afterCommands, drainedBytes_append_decFinish hflush _ _ hlegal,
    charsGiven_decIngests, drainedBytes_decode_of_legal _ _ hlegal]

/-! ### The one-shot results -/

theorem answersOf_bytesCommands (x : List Byte) (e : EncSession) (d : DecSession) :
    answersOf (bytesCommands x) e d = List.replicate x.length .ack := by
  induction x generalizing e with
  | nil => rfl
  | cons b x ih => exact congrArg (Response.ack :: ·) (ih _)

theorem answersOf_charsCommands (y : List CharCode) (e : EncSession) (d : DecSession) :
    answersOf (charsCommands y) e d = List.replicate y.length .ack := by
  induction y generalizing d with
  | nil => rfl
  | cons ch y ih => exact congrArg (Response.ack :: ·) (ih _)

theorem EncSession.Legal.run {e : EncSession} (h : e.Legal) (cmds : List Instr) : (encRun cmds e).Legal := by
  induction cmds generalizing e with
  | nil => exact h
  | cons i cmds ih => exact ih (h.effect i)

/-- The bytes and a finish answer with `Ack`s and one drain, which holds all that is drained. -/
theorem answersOf_bytes_encFinish (x : List Byte) (m : Bool) {e : EncSession} (he : e.Legal) (d : DecSession) :
    answersOf (bytesCommands x ++ (Pseudo.encFinish m).expand) e d =
      List.replicate (x.length + 1) .ack ++ [.chars (drained (bytesCommands x ++ (Pseudo.encFinish m).expand) e d)] := by
  have hlegal := he.run (bytesCommands x)
  rw [answersOf_append, answersOf_bytesCommands, answersOf_encFinish m hlegal, drained_append, drained_bytesCommands,
    drained_encFinish m hlegal, List.replicate_succ', List.append_assoc]
  rfl

/-- DECODE's first drain holds all that is drained; its second finds the queue as the first left it, empty. -/
theorem answersOf_decode (y : List CharCode) (e : EncSession) (d : DecSession) :
    answersOf (Pseudo.decode y).expand e d = List.replicate y.length .ack ++
      [.bytes (drainedBytes (Pseudo.decode y).expand e d), .ack, .bytes []] := by
  have hanswers : answersOf (Pseudo.decode y).expand e d = List.replicate y.length .ack ++
      [.bytes (decRun (charsCommands y) d).out, .ack, .bytes []] := by
    rw [Pseudo.expand, List.append_assoc, answersOf_append, answersOf_charsCommands]
    rfl
  rw [drainedBytes, hanswers, List.flatMap_append, List.flatMap_replicate]
  simp [Response.bytesPart]

/-- Settles O32: the first drain of ENCODE only splits its result; the second drain of DECODE has nothing to return. -/
theorem oneShotResultsDoNotDependOnTheFirstDrain : Obligations.OneShotResultsDoNotDependOnTheFirstDrain := by
  unfold Obligations.OneShotResultsDoNotDependOnTheFirstDrain
  constructor
  · intro x s henc _
    have hlegal : s.enc.Legal := henc ▸ EncSession.reset_legal
    refine ⟨_, _, drained (bytesCommands x ++ (Pseudo.encFinish false).expand) s.enc s.dec,
      runCommands_eq_afterCommands _ s, runCommands_eq_afterCommands _ s, ?_, ?_⟩
    · rw [newResponses_afterCommands]
      exact answersOf_bytes_encFinish x false hlegal s.dec
    · rw [charsResult_encode henc, henc, drained_bytes_encFinish]
      exact (List.append_nil _).symm
  · intro y s _ _
    refine ⟨_, _, runCommands_eq_afterCommands _ s, ?_, rfl⟩
    rw [newResponses_afterCommands, bytesResult_afterCommands]
    exact answersOf_decode y s.enc s.dec

/-! ### Texts that decode alike -/

theorem decode_agrees_of_recognised_eq {y z : List CharCode} (h : recognised y = recognised z) {s : State} (hs : s.dec.Legal) :
    ∃ a b, runCommands (Pseudo.decode y).expand s = .next a ∧ runCommands (Pseudo.decode z).expand s = .next b ∧
      bytesResult s a = bytesResult s b ∧ a.dec = b.dec := by
  refine ⟨_, _, runCommands_eq_afterCommands _ s, runCommands_eq_afterCommands _ s, ?_, ?_⟩
  · rw [bytesResult_afterCommands, bytesResult_afterCommands, drainedBytes_decode_of_legal y _ hs,
      drainedBytes_decode_of_legal z _ hs, h]
  · rw [State.afterCommands_dec, State.afterCommands_dec, decRun_decode, decRun_decode]

theorem fold_upperCased (ch : CharCode) : fold (upperCased ch) = fold ch := by
  have hupper : (upperCased ch).toNat = if 0x61 ≤ ch.toNat ∧ ch.toNat ≤ 0x7A then ch.toNat - 0x20 else ch.toNat := by
    unfold upperCased
    split
    next h => exact BitVec.toNat_sub_of_le (BitVec.le_def.mpr (by simp; omega))
    next => rfl
  rw [← BitVec.toNat_inj, fold_toNat, fold_toNat, hupper]
  split_ifs <;> omega

theorem recognised_upperCased (y : List CharCode) : recognised (y.map upperCased) = recognised y := by
  have hlookup : lookup ∘ upperCased = lookup := funext fun ch => by
    rw [Function.comp_apply, ← lookup_fold, fold_upperCased, lookup_fold]
  rw [recognised, List.filterMap_map, hlookup, ← recognised]

/-- Settles O39: upper-casing keeps every character's entry. -/
theorem decodingIgnoresCase : Obligations.DecodingIgnoresCase := by
  unfold Obligations.DecodingIgnoresCase
  intro y z s hs hcase
  have h : recognised y = recognised z := by
    rcases hcase with rfl | hsame
    · exact (recognised_upperCased y).symm
    · rw [← recognised_upperCased y, hsame, recognised_upperCased z]
  exact decode_agrees_of_recognised_eq h hs.2

theorem recognised_congr {y z : List CharCode} (h : List.Forall₂ (fun c d => lookup c = lookup d) y z) :
    recognised y = recognised z := by
  induction h with
  | nil => rfl
  | cons hcd _ ih =>
    rw [recognised, recognised, List.filterMap_cons, List.filterMap_cons, hcd, ← recognised, ih, ← recognised]

/-- Settles O40: `o` and `O` have the entry of `0`, and `i`, `I`, `l` and `L` that of `1` (R74). -/
theorem decodingAcceptsAliases : Obligations.DecodingAcceptsAliases := by
  unfold Obligations.DecodingAcceptsAliases
  intro y z s hs halias
  refine decode_agrees_of_recognised_eq (recognised_congr (halias.imp fun c d hcd => ?_)) hs.2
  rcases hcd with rfl | ⟨rfl, rfl | rfl⟩ | ⟨rfl, rfl | rfl | rfl | rfl⟩
  · rfl
  all_goals decide

/-- Settles O41: noise has no entry, so leaving it out leaves the recognised characters. -/
theorem decodingSkipsNoise : Obligations.DecodingSkipsNoise := by
  unfold Obligations.DecodingSkipsNoise
  intro y s hs
  refine decode_agrees_of_recognised_eq ?_ hs.2
  rw [recognised, recognised, List.filterMap_filter]
  refine List.filterMap_congr fun ch _ => ?_
  cases lookup ch <;> rfl

/-! ### The round trip -/

theorem wholeGroups_symbolStream (vs : List SymVal) : wholeGroups (symbolStream vs) = vs.map memReadFwd := by
  induction vs with
  | nil => rfl
  | cons v vs ih =>
    have hfirst : wholeGroups (bitsMsbFirst v) = [memReadFwd v] := by
      rw [wholeGroups_of_length_five (bitsMsbFirst_length v), bitsValue_symbol]
    have hrest : partialGroup (bitsMsbFirst v) = [] :=
      List.eq_nil_of_length_eq_zero (by rw [partialGroup_length, bitsMsbFirst_length])
    have hstream : symbolStream (v :: vs) = bitsMsbFirst v ++ symbolStream vs := rfl
    rw [hstream, wholeGroups_append, hfirst, hrest, List.nil_append, ih, List.map_cons, List.singleton_append]

theorem wholeBytes_byteStream (x : List Byte) : wholeBytes (byteStream x) = x := by
  induction x with
  | nil => rfl
  | cons b x ih =>
    have hall : (bitsMsbFirst b).take 8 = bitsMsbFirst b := List.take_of_length_le (bitsMsbFirst_length b).le
    have hfirst : wholeBytes (bitsMsbFirst b) = [b] := by
      simp [wholeBytes, streamByte, hall, bitsValue_byte]
    have hrest : partialByte (bitsMsbFirst b) = [] :=
      List.eq_nil_of_length_eq_zero (by rw [partialByte_length, bitsMsbFirst_length])
    have hstream : byteStream (b :: x) = bitsMsbFirst b ++ byteStream x := rfl
    rw [hstream, wholeBytes_append, hfirst, hrest, List.nil_append, ih, List.singleton_append]

/-- A bitstream of whole groups is that of some symbols. -/
theorem exists_symbolStream_eq {S : List Bool} {q : Nat} (h : S.length = 5 * q) : ∃ vs, symbolStream vs = S := by
  induction q generalizing S with
  | zero => exact ⟨[], (List.eq_nil_of_length_eq_zero h).symm⟩
  | succ q ih =>
    match S, h with
    | a :: b :: c :: d :: e :: S, h =>
      obtain ⟨vs, rfl⟩ := ih (S := S) (by simp only [List.length_cons] at h; omega)
      refine ⟨BitVec.ofNat 5 (bitsValue [a, b, c, d, e]) :: vs, ?_⟩
      exact congrArg (· ++ symbolStream vs) (bitsMsbFirst_ofBits5 a b c d e)

theorem padded_length (S : List Bool) : (padded S).length = 5 * ((S.length + 4) / 5) := by
  rw [padded, List.length_append, List.length_replicate]
  omega

theorem recognised_map_memReadFwd (vs : List SymVal) : recognised (vs.map memReadFwd) = vs := by
  have hlookup : lookup ∘ memReadFwd = some := funext lookup_memReadFwd
  rw [recognised, List.filterMap_map, hlookup, List.filterMap_some]

theorem recognised_append (y z : List CharCode) : recognised (y ++ z) = recognised y ++ recognised z :=
  List.filterMap_append

theorem recognised_encMarker (m : Bool) : recognised (encMarker m) = [] := by
  cases m <;> decide

/-- The decoder sees the padded bitstream again, with or without the marker. -/
theorem symbolStream_recognised_encodedText_append_marker (x : List Byte) (m : Bool) :
    symbolStream (recognised (encodedText x ++ encMarker m)) = padded (byteStream x) := by
  obtain ⟨vs, hvs⟩ := exists_symbolStream_eq (padded_length (byteStream x))
  rw [recognised_append, recognised_encMarker, List.append_nil, encodedText, ← hvs, wholeGroups_symbolStream,
    recognised_map_memReadFwd]

theorem symbolStream_recognised_encodedText (x : List Byte) :
    symbolStream (recognised (encodedText x)) = padded (byteStream x) := by
  have h := symbolStream_recognised_encodedText_append_marker x false
  rwa [encMarker, if_neg Bool.false_ne_true, List.append_nil] at h

theorem partialByte_byteStream (x : List Byte) : partialByte (byteStream x) = [] :=
  List.eq_nil_of_length_eq_zero (by rw [partialByte_length, byteStream_length, Nat.mul_mod_right])

/-- The padding is less than a byte. -/
theorem padding_length_lt (n : Nat) : (List.replicate ((5 - n % 5) % 5) false).length < 8 := by
  rw [List.length_replicate]
  omega

theorem wholeBytes_padded (x : List Byte) : wholeBytes (padded (byteStream x)) = x := by
  rw [padded, wholeBytes_append, wholeBytes_byteStream, partialByte_byteStream, List.nil_append,
    wholeBytes_of_lt (padding_length_lt _), List.append_nil]

theorem partialByte_padded (x : List Byte) :
    partialByte (padded (byteStream x)) = List.replicate ((5 - 8 * x.length % 5) % 5) false := by
  rw [padded, partialByte_append, partialByte_byteStream, List.nil_append, partialByte_of_lt (padding_length_lt _),
    byteStream_length]

theorem decodedBytes_encodedText_append_marker (x : List Byte) (m : Bool) :
    decodedBytes (encodedText x ++ encMarker m) = x := by
  rw [decodedBytes, symbolStream_recognised_encodedText_append_marker, wholeBytes_padded]

theorem decodedBytes_encodedText (x : List Byte) : decodedBytes (encodedText x) = x := by
  rw [decodedBytes, symbolStream_recognised_encodedText, wholeBytes_padded]

/-- Characters alone, from reset: what is left over before the flush. -/
theorem cutsIntoBytes_chars (y : List CharCode) (e : EncSession) :
    CutsIntoBytes (charsCommands y) e DecSession.reset (symbolStream (recognised y)) := by
  have h := cutsIntoBytes (decFlush_not_mem_charsCommands y) e DecSession.reset_legal
  rwa [charsGiven_charsCommands] at h

theorem pending_decRun_charsCommands (y : List CharCode) :
    (decRun (charsCommands y) DecSession.reset).pending = partialByte (symbolStream (recognised y)) := by
  rw [(cutsIntoBytes_chars y EncSession.reset).pending, DecSession.reset_pending, List.nil_append]

/-- The number of leftover bits of a text (R145). -/
theorem cnt_decRun_charsCommands (y : List CharCode) :
    (decRun (charsCommands y) DecSession.reset).cnt.toNat = 5 * (recognised y).length % 8 := by
  rw [← DecSession.pending_length, pending_decRun_charsCommands, partialByte_length, symbolStream_length]

/-- Leftover bits that are all zero, in a legal session: the whole register is zero. -/
theorem DecSession.Legal.acc_of_pending_zero {d : DecSession} (h : d.Legal) (hzero : ∀ b ∈ d.pending, b = false) :
    d.acc = 0x00 := by
  refine BitVec.eq_of_getLsbD_eq fun i hi => Eq.trans ?_ BitVec.getLsbD_zero.symm
  by_cases hlow : i < 8 - d.cnt.toNat
  · exact getLsbD_eq_false_of_and_mask h hlow
  · have hlt : 7 - i < d.pending.length := by
      rw [DecSession.pending_length]
      omega
    have hbit : d.pending[7 - i] = d.acc.getLsbD i := by
      simp only [DecSession.pending, List.getElem_take, bitsMsbFirst_getElem, BitVec.getMsbD_eq_getLsbD]
      simp [show 7 - i < 8 by omega, show 7 - (7 - i) = i by omega]
    rw [← hbit]
    exact hzero _ (List.getElem_mem hlt)

/-- What the characters of an encoded message leave in the decoder: the padding. -/
theorem pending_after_encodedText (x : List Byte) :
    (decRun (charsCommands (encodedText x)) DecSession.reset).pending =
      List.replicate ((5 - 8 * x.length % 5) % 5) false := by
  rw [pending_decRun_charsCommands, symbolStream_recognised_encodedText, partialByte_padded]

theorem cnt_after_encodedText (x : List Byte) :
    (decRun (charsCommands (encodedText x)) DecSession.reset).cnt.toNat = (5 - 8 * x.length % 5) % 5 := by
  rw [← DecSession.pending_length, pending_after_encodedText, List.length_replicate]

/-- Settles O33: the characters carry the padded bitstream; its whole bytes are the message, and its rest is the zeros of the
padding. -/
theorem encodeThenDecodeGivesTheBytes : Obligations.EncodeThenDecodeGivesTheBytes := by
  unfold Obligations.EncodeThenDecodeGivesTheBytes
  intro x s henc hdec
  refine ⟨_, _, _, runCommands_eq_afterCommands _ s, runCommands_eq_afterCommands _ _, ?_, ?_,
    runCommands_eq_afterCommands _ _, ?_⟩
  · rw [State.afterCommands_dec, dec_afterCommands_encode, hdec, charsResult_encode henc, cnt_after_encodedText]
    omega
  · rw [State.afterCommands_dec, dec_afterCommands_encode, hdec, charsResult_encode henc]
    refine (cutsIntoBytes_chars _ s.enc).legal.acc_of_pending_zero fun b hb => ?_
    rw [pending_after_encodedText] at hb
    exact List.eq_of_mem_replicate hb
  · rw [bytesResult_decode _ ((dec_afterCommands_encode x).trans hdec), charsResult_encode henc, decodedBytes_encodedText]

theorem encodedText_length (x : List Byte) : (encodedText x).length = (8 * x.length + 4) / 5 := by
  rw [encodedText, wholeGroups_length, padded_length, byteStream_length, Nat.mul_div_cancel_left _ (by decide)]

/-- The carry bits after the bytes of a message: none when they are whole groups. -/
theorem off_after_bytes_of_whole_groups {x : List Byte} {j : Nat} (hx : x.length = 5 * j) :
    (encRun (bytesCommands x) EncSession.reset).off = 0 := by
  obtain ⟨hlegal, hpending, -⟩ :=
    cutsIntoGroups (encFlush_not_mem_bytesCommands x) EncSession.reset_legal DecSession.reset
  have hcarry : carryCount (encRun (bytesCommands x) EncSession.reset).off = 0 := by
    rw [← EncSession.pending_length, hpending, EncSession.reset_pending, bytesGiven_bytesCommands, List.nil_append,
      partialGroup_length, byteStream_length]
    omega
  rw [hlegal.off_eq, hcarry]
  rfl

/-- Settles O34: `5j` bytes are `8j` whole groups. -/
theorem alignedMessagesNeedNoPadding : Obligations.AlignedMessagesNeedNoPadding := by
  unfold Obligations.AlignedMessagesNeedNoPadding
  intro j x s henc hdec hx
  refine ⟨_, _, _, _, runCommands_eq_afterCommands _ s, ?_, runCommands_eq_afterCommands _ s, ?_,
    runCommands_eq_afterCommands _ _, ?_, runCommands_eq_afterCommands _ _, ?_⟩
  · rw [State.afterCommands_enc, henc, off_after_bytes_of_whole_groups hx]
  · rw [charsResult_encode henc, encodedText_length]
    omega
  · have hpadding : (5 - 8 * x.length % 5) % 5 = 0 := by omega
    rw [State.afterCommands_dec, dec_afterCommands_encode, hdec, charsResult_encode henc, ← BitVec.toNat_inj,
      cnt_after_encodedText, hpadding]
    rfl
  · rw [bytesResult_decode _ ((dec_afterCommands_encode x).trans hdec), charsResult_encode henc, decodedBytes_encodedText]

/-- Settles O36: the marker is noise behind the message's text. -/
theorem markerDoesNotDisturbDecoding : Obligations.MarkerDoesNotDisturbDecoding := by
  unfold Obligations.MarkerDoesNotDisturbDecoding
  intro x s henc hdec
  refine ⟨_, _, runCommands_eq_afterCommands (bytesCommands x ++ (Pseudo.encFinish true).expand) s, ?_,
    runCommands_eq_afterCommands _ _, ?_⟩
  · rw [charsResult_bytes_encFinish henc]
    exact List.getLast?_concat
  · rw [bytesResult_decode _ ((dec_afterCommands_bytes_encFinish x true).trans hdec), charsResult_bytes_encFinish henc,
      decodedBytes_encodedText_append_marker]

theorem recognised_encodedText_append_marker_length (x : List Byte) (m : Bool) :
    (recognised (encodedText x ++ encMarker m)).length = (8 * x.length + 4) / 5 := by
  have hbits := congrArg List.length (symbolStream_recognised_encodedText_append_marker x m)
  rw [symbolStream_length, padded_length, byteStream_length] at hbits
  exact Nat.eq_of_mul_eq_mul_left (by decide) hbits

/-- Settles O42: the lengths of the padded bitstream in groups, and of a text's bitstream in bytes and leftover bits. -/
theorem messageLengths : Obligations.MessageLengths := by
  unfold Obligations.MessageLengths
  constructor
  · intro x m s henc _
    have htext := charsResult_bytes_encFinish henc x m
    refine ⟨_, runCommands_eq_afterCommands (bytesCommands x ++ (Pseudo.encFinish m).expand) s, ?_, ?_⟩
    · rw [htext, List.length_append, encodedText_length, encMarker_length]
    · rw [htext, recognised_encodedText_append_marker_length]
      simp only [List.mem_cons, List.not_mem_nil, or_false]
      omega
  · intro y s hdec _
    refine ⟨_, _, runCommands_eq_afterCommands _ s, ?_, runCommands_eq_afterCommands _ s, ?_⟩
    · rw [State.afterCommands_dec, hdec, cnt_decRun_charsCommands]
    · rw [bytesResult_decode _ hdec, decodedBytes, wholeBytes_length, symbolStream_length]

/-! ### The normal form -/

theorem mem_alphabet_of_mem_encodedText {x : List Byte} {c : CharCode} (h : c ∈ encodedText x) : c ∈ alphabet := by
  obtain ⟨g, -, rfl⟩ := List.mem_map.mp h
  exact memReadFwd_mem _

/-- R146's five losses, a text for each with its normal form: case, a second spelling of `0`, noise, non-zero padding bits, dropped
trailing bits. -/
def normalForms : List (List CharCode × List CharCode) :=
  [(ascii "CR", ascii "cr"), (ascii "co", ascii "c0"), (ascii "c-r", ascii "cr"), (ascii "cs", ascii "cr"),
    (ascii "c", ascii "")]

theorem encodedText_decodedBytes_normalForms :
    ∀ p ∈ normalForms, encodedText (decodedBytes p.1) = p.2 ∧ p.2 ≠ p.1 := by decide +kernel

/-- Settles O35: the symbols are read from the alphabet; decoding the text of a text's bytes gives the bytes; and the five
examples. -/
theorem encoderOutputIsTheNormalForm : Obligations.EncoderOutputIsTheNormalForm := by
  unfold Obligations.EncoderOutputIsTheNormalForm
  refine ⟨fun x s henc _ => ?_, fun y s henc hdec => ?_, fun p hp s henc hdec => ?_⟩
  · refine ⟨_, runCommands_eq_afterCommands _ s, fun c hc => ?_⟩
    rw [charsResult_encode henc] at hc
    exact mem_alphabet_of_mem_encodedText hc
  · refine ⟨_, _, _, runCommands_eq_afterCommands _ s, runCommands_eq_afterCommands _ _,
      runCommands_eq_afterCommands _ _, ?_⟩
    have hreset : ∀ x, ((s.afterCommands (Pseudo.decode y).expand).afterCommands (Pseudo.encode x).expand).dec =
        DecSession.reset := fun x => (dec_afterCommands_encode x).trans (dec_afterCommands_decode y)
    rw [bytesResult_decode _ (hreset _), charsResult_encode ((enc_afterCommands_decode y).trans henc), decodedBytes_encodedText]
  · obtain ⟨hnormal, hne⟩ := encodedText_decodedBytes_normalForms p hp
    refine ⟨_, _, runCommands_eq_afterCommands _ s, runCommands_eq_afterCommands _ _, ?_, hne⟩
    rw [charsResult_encode ((enc_afterCommands_decode p.1).trans henc), bytesResult_decode _ hdec, hnormal]

/-! ### The source's example -/

theorem encodedText_sourceExample :
    encodedText (ascii "lowercase UPPERCASE 1234567 !@#$%^&*") =
      ascii "dhqqesbjcdgq6s90an850haj8d0n6h9064s36d1n6rvj08a04cj2aqh658" := by decide +kernel

/-- Settles O43: the listed bytes are the literal's codes; the text is computed, and decoding it is the round trip. -/
theorem sourceExampleEncodesAndDecodes : Obligations.SourceExampleEncodesAndDecodes := by
  unfold Obligations.SourceExampleEncodesAndDecodes
  refine ⟨_, _, runCommands_eq_afterCommands _ _, ?_, runCommands_eq_afterCommands _ _, ?_⟩
  · rw [charsResult_encode rfl]
    exact encodedText_sourceExample
  · rw [bytesResult_decode _ (dec_afterCommands_encode _), charsResult_encode rfl, decodedBytes_encodedText]
    decide +kernel

end Sys2Proof.Machine

/-!
No exception: a step answers a next state, whatever the event, the operand and the state (`60_exceptions.md` R160, R163,
`70_reset_and_hazards.md` R180).
-/

namespace Sys2Proof.Machine

/-- Settles O6, by the four kinds of step: at rest, a RESET, a command, a reserved word. -/
theorem everyStepGivesANextState : Obligations.EveryStepGivesANextState := by
  unfold Obligations.EveryStepGivesANextState
  exact step_answers_next

/-- Settles O45: the step is `exec` of the decoded command, and `exec_eq` gives the state that every command answers. -/
theorem everyCommandGivesANextState : Obligations.EveryCommandGivesANextState := by
  unfold Obligations.EveryCommandGivesANextState
  intro s w rest i hin hw
  have hstep : step s = exec i (s.setInput rest) := step_of_input_command hin hw
  exact ⟨_, hstep.trans (exec_eq i (s.setInput rest))⟩

end Sys2Proof.Machine
